-- ==== Sys2Proof/Word.lean ====
section
/-!
DEFINITION. The words of the block: bytes, 32-bit and 64-bit registers, and the 48-bit command word
(spec/00_scope.md R9, R10: every value is an unsigned number of a stated width).
-/

namespace Sys2Proof

/-- A byte of `SRC`, of `DST`, or of a packed group (R11: a number 0 to 255). -/
abbrev Byte := BitVec 8

/-- A header register, a completion register, a frame index (R23, R26, R83). -/
abbrev Word32 := BitVec 32

/-- The result register `RES`, the cursor `CUR`, a `SRC` offset (R28, R29, R31). -/
abbrev Word64 := BitVec 64

/-- A command word, received whole by the block (R80). -/
abbrev CommandWord := BitVec 48

end Sys2Proof
end

