-- ==== Sys2Proof/Syntax.lean ====
section
/-!
DEFINITION. The seven commands of the RAW10U command set, one constructor for each row of
spec/opcode_table.json (spec/30_encoding.md R82, operands R83).
-/

namespace Sys2Proof

/-- A command with its operands. Each operand has exactly the width its field has, so that every
value of this type is a command the host can present. -/
inductive Instr where
  /-- `PARSE` (R110). -/
  | parse
  /-- `SNIFF` (R118). -/
  | sniff
  /-- `OFFSET fi` (R130). -/
  | offset (fi : Word32)
  /-- `DECODE8 fi` (R160). -/
  | decode8 (fi : Word32)
  /-- `DECODE16 fi` (R161). -/
  | decode16 (fi : Word32)
  /-- `UNPK8 b0,b1,b2,b3,b4` (R146), the bytes in rising file offset. -/
  | unpk8 (b0 b1 b2 b3 b4 : Byte)
  /-- `UNPK16 b0,b1,b2,b3,b4` (R145), the bytes in rising file offset. -/
  | unpk16 (b0 b1 b2 b3 b4 : Byte)
deriving DecidableEq, Repr

end Sys2Proof
end

