-- ==== Sys2Proof/WellFormed.lean ====
section
/-!
DEFINITION. Well-formed command lines (spec/30_encoding.md R88): a mnemonic and operand numbers, with
the operand count and the operand ranges checked. A value of `Instr` is the line's checked form:
its operands have the widths of their fields.
-/

namespace Sys2Proof

/-- The seven mnemonics of R82 and R88. -/
inductive Mnemonic where
  | PARSE | SNIFF | OFFSET | DECODE8 | DECODE16 | UNPK8 | UNPK16
deriving DecidableEq, Repr

/-- A command line of R88 before its checks: operands are numbers of any size. -/
structure AsmLine where
  mnemonic : Mnemonic
  operands : List Nat
deriving DecidableEq, Repr

/-- How many operand numbers a mnemonic takes (R88). -/
def Mnemonic.operandCount : Mnemonic → Nat
  | .PARSE | .SNIFF => 0
  | .OFFSET | .DECODE8 | .DECODE16 => 1
  | .UNPK8 | .UNPK16 => 5

/-- Every operand number of a mnemonic lies below this bound: `fi` from 0 to 2^32-1, a group byte
from 0 to 255 (R88). -/
def Mnemonic.operandBound : Mnemonic → Nat
  | .PARSE | .SNIFF => 0
  | .OFFSET | .DECODE8 | .DECODE16 => 2 ^ 32
  | .UNPK8 | .UNPK16 => 2 ^ 8

/-- The two checks of a line: the number of its operands, and the range of each (R88). -/
def AsmLine.wellFormed (l : AsmLine) : Bool :=
  decide (l.operands.length = l.mnemonic.operandCount) &&
    l.operands.all (fun n => decide (n < l.mnemonic.operandBound))

/-- The line that writes a command (R88). -/
def Instr.line : Instr → AsmLine
  | .parse => ⟨.PARSE, []⟩
  | .sniff => ⟨.SNIFF, []⟩
  | .offset fi => ⟨.OFFSET, [fi.toNat]⟩
  | .decode8 fi => ⟨.DECODE8, [fi.toNat]⟩
  | .decode16 fi => ⟨.DECODE16, [fi.toNat]⟩
  | .unpk8 b0 b1 b2 b3 b4 => ⟨.UNPK8, [b0.toNat, b1.toNat, b2.toNat, b3.toNat, b4.toNat]⟩
  | .unpk16 b0 b1 b2 b3 b4 => ⟨.UNPK16, [b0.toNat, b1.toNat, b2.toNat, b3.toNat, b4.toNat]⟩

/-- A command is well formed when its line is. The operand types make this hold of every command
(`Laws`: `Instr.wellFormed_all`). -/
def Instr.wellFormed (i : Instr) : Bool := i.line.wellFormed

end Sys2Proof
end

