-- ==== Sys2Proof/Decode.lean ====
section
/-!
DEFINITION. The command word and its decoder and encoder (spec/30_encoding.md R80 to R87). Decoding is
total, reads no state, and comes before every check of a command (R86); a word that is none of the
seven commands is rejected with the clause of R85 that it breaks.
-/

namespace Sys2Proof

/-! ## The fields of a command word (R80) -/

/-- Bits 47:44. -/
def opField (cw : CommandWord) : BitVec 4 := cw.extractLsb' 44 4

/-- Bit 43. -/
def vField (cw : CommandWord) : BitVec 1 := cw.extractLsb' 43 1

/-- Bits 42:40. -/
def rsvField (cw : CommandWord) : BitVec 3 := cw.extractLsb' 40 3

/-- Bits 39:0. -/
def immField (cw : CommandWord) : BitVec 40 := cw.extractLsb' 0 40

/-- `imm[39:32]`. -/
def immHigh (cw : CommandWord) : BitVec 8 := cw.extractLsb' 32 8

/-- The frame index operand `imm[31:0]`, unsigned, neither scaled nor extended (R83). -/
def frameIndexField (cw : CommandWord) : Word32 := cw.extractLsb' 0 32

/-- The group byte `b_i = imm[8i+7:8i]` (R83). -/
def groupByteField (i : Nat) (cw : CommandWord) : Byte := cw.extractLsb' (8 * i) 8

/-! ## Decoding -/

/-- Why a word is no command: the clauses of R85, and a transport that is not 6 bytes long (R81). All
clauses of R85 lead to the same completion, `IllegalCommand`. -/
inductive Illegal where
  /-- `op` is `0x0` or `0x6` to `0xF`. -/
  | opcode
  /-- `rsv ≠ 0`. -/
  | reserved
  /-- `op` is `0x1`, `0x2` or `0x3` and `v = 1`. -/
  | variant
  /-- `op` is `0x1` or `0x2` and `imm ≠ 0`. -/
  | immediate
  /-- `op` is `0x3` or `0x4` and `imm[39:32] ≠ 0`. -/
  | immediateHigh
  /-- The transport bytes are not the 6 bytes of one command word. -/
  | length
deriving DecidableEq, Repr

/-- A command with no variant and no operand (`PARSE`, `SNIFF`). -/
def decodePlain (i : Instr) (cw : CommandWord) : Except Illegal Instr :=
  if vField cw ≠ 0 then .error .variant
  else if immField cw ≠ 0 then .error .immediate
  else .ok i

/-- A command whose operand is a frame index. -/
def decodeFrame (mk : Word32 → Instr) (cw : CommandWord) : Except Illegal Instr :=
  if immHigh cw ≠ 0 then .error .immediateHigh
  else .ok (mk (frameIndexField cw))

/-- A command whose operand is a packed group. -/
def decodeGroup (mk : Byte → Byte → Byte → Byte → Byte → Instr) (cw : CommandWord) : Instr :=
  mk (groupByteField 0 cw) (groupByteField 1 cw) (groupByteField 2 cw) (groupByteField 3 cw)
    (groupByteField 4 cw)

/-- The decoder of R82, R83 and R85. -/
def decode (cw : CommandWord) : Except Illegal Instr :=
  if rsvField cw ≠ 0 then .error .reserved
  else if opField cw = 0x1 then decodePlain .parse cw
  else if opField cw = 0x2 then decodePlain .sniff cw
  else if opField cw = 0x3 then
    if vField cw ≠ 0 then .error .variant else decodeFrame .offset cw
  else if opField cw = 0x4 then
    if vField cw = 0 then decodeFrame .decode8 cw else decodeFrame .decode16 cw
  else if opField cw = 0x5 then
    if vField cw = 0 then .ok (decodeGroup .unpk8 cw) else .ok (decodeGroup .unpk16 cw)
  else .error .opcode

/-! ## Transport as bytes (R81) -/

/-- The 6 bytes of a command word, least significant byte first. -/
def toTransport (cw : CommandWord) : List Byte :=
  [cw.extractLsb' 0 8, cw.extractLsb' 8 8, cw.extractLsb' 16 8, cw.extractLsb' 24 8,
   cw.extractLsb' 32 8, cw.extractLsb' 40 8]

/-- The command word that 6 transported bytes carry. -/
def ofTransport : List Byte → Option CommandWord
  | [t0, t1, t2, t3, t4, t5] => some (t5 ++ t4 ++ t3 ++ t2 ++ t1 ++ t0)
  | _ => none

/-- Decoding any list of transported bytes. -/
def decodeBytes (bytes : List Byte) : Except Illegal Instr :=
  match ofTransport bytes with
  | some cw => decode cw
  | none => .error .length

/-! ## Encoding -/

/-- The word of a command without operand: `op`, `v = 0`, `rsv = 0`, `imm = 0`. -/
def encodePlain (op : BitVec 4) : CommandWord := op ++ (0 : BitVec 44)

/-- The word of a command with a frame index: `imm[39:32] = 0`, `imm[31:0] = fi`. -/
def encodeFrame (op : BitVec 4) (v : BitVec 1) (fi : Word32) : CommandWord :=
  op ++ v ++ (0 : BitVec 3) ++ (0 : BitVec 8) ++ fi

/-- The word of a command with a group: `imm` is the group word `W`, `b0` in its lowest bits. -/
def encodeGroup (v : BitVec 1) (b0 b1 b2 b3 b4 : Byte) : CommandWord :=
  (0x5 : BitVec 4) ++ v ++ (0 : BitVec 3) ++ b4 ++ b3 ++ b2 ++ b1 ++ b0

/-- The command word of a command (R82, R83). -/
def encode : Instr → CommandWord
  | .parse => encodePlain 0x1
  | .sniff => encodePlain 0x2
  | .offset fi => encodeFrame 0x3 0 fi
  | .decode8 fi => encodeFrame 0x4 0 fi
  | .decode16 fi => encodeFrame 0x4 1 fi
  | .unpk8 b0 b1 b2 b3 b4 => encodeGroup 0 b0 b1 b2 b3 b4
  | .unpk16 b0 b1 b2 b3 b4 => encodeGroup 1 b0 b1 b2 b3 b4

/-! ## The opcode map as a table of matches and masks (R82)

The same seven commands a second time, as the table of R82 gives them; the decoder above does not use
it, so that the two can be held against each other. -/

/-- One row of R82's table: a word `cw` selects the row when `cw &&& mask = pattern`. -/
structure OpcodeRow where
  mnemonic : Mnemonic
  pattern : CommandWord
  mask : CommandWord
deriving DecidableEq, Repr

/-- The seven rows of R82. -/
def opcodeRows : List OpcodeRow :=
  [⟨.PARSE, 0x100000000000, 0xFFFFFFFFFFFF⟩,
   ⟨.SNIFF, 0x200000000000, 0xFFFFFFFFFFFF⟩,
   ⟨.OFFSET, 0x300000000000, 0xFFFF00000000⟩,
   ⟨.DECODE8, 0x400000000000, 0xFFFF00000000⟩,
   ⟨.DECODE16, 0x480000000000, 0xFFFF00000000⟩,
   ⟨.UNPK8, 0x500000000000, 0xFF0000000000⟩,
   ⟨.UNPK16, 0x580000000000, 0xFF0000000000⟩]

/-- Whether a word selects a row (R82). -/
def OpcodeRow.selects (row : OpcodeRow) (cw : CommandWord) : Bool :=
  decide (cw &&& row.mask = row.pattern)

/-! ## The host's view of the decoder -/

/-- The instruction the decoder reads from the low `nbits` bits of `w`, laid out as the 6 transported
bytes of R81. -/
def decodeTableWord (nbits w : Nat) : Option Instr :=
  match decodeBytes (toTransport (BitVec.ofNat 48 (w % 2 ^ nbits))) with
  | .ok i => some i
  | .error _ => none

end Sys2Proof
end

