-- ==== Sys2Proof/Config.lean ====
section
/-!
DEFINITION. What lies outside the block: the environment's answers to reads, and the FREE VALUES, which
the spec calls unspecified (spec/00_scope.md R13, spec/93_implementation_defined.md U6 to U10). Each
free value is a constant without a body, so that no proof can use what it is.
-/

namespace Sys2Proof

/-- The environment's choice for one read of one byte or more, where `IO_RELIABLE` is false
(spec/10_state.md R20, spec/20_memory.md R55). -/
inductive IOAnswer where
  /-- The environment lets the read go on: it returns its bytes or ends in `ShortRead`. -/
  | serve
  /-- The environment fails the read: `IOFailure`. -/
  | fail
deriving DecidableEq, Repr, Inhabited

/-- FREE VALUE: the environment's answer to draw number `n`, where the state lists none (R55, U8, U9). -/
opaque Config.ioAnswer : Nat → IOAnswer

/-- FREE VALUE: `CUR` after a read that failed, at draw number `n` (R28, R57, U7). -/
opaque Config.curAfterFailure : Nat → Word64

/-- FREE VALUE: what the host reads at address `a` of `DST`, where `DST` lists no byte, after that byte has
become unspecified `n` times (R32, R35, R167, U6, U10). -/
opaque Config.dstUnspecified : Nat → Nat → Byte

end Sys2Proof
end

