-- ==== Sys2Proof/Machine/State.lean ====
section
/-!
DEFINITION. The state of the block (spec/10_state.md R20 to R37), the parameters a reset binds
(spec/00_scope.md R9), the host's coming actions, and the ways a step can stop.
-/

namespace Sys2Proof.Machine

/-- The two output variants (R14): 8-bit truncated samples, or 16-bit zero-extended samples. -/
inductive Variant where
  | variant8
  | variant16
deriving DecidableEq, Repr

/-- The four header registers `HDR_MAGIC`, `HDR_FRAMECOUNT`, `HDR_HEIGHT`, `HDR_WIDTH` (R23), written
all four at once. -/
structure Header where
  magic : Word32
  frameCount : Word32
  height : Word32
  width : Word32
deriving DecidableEq, Repr

/-- The phase (R22). -/
inductive Phase where
  | unparsed
  | parsed
deriving DecidableEq, Repr

/-- A 64-bit register that holds no value from reset until its first write (R13, R29): what it stores, and
whether it has been written since reset. -/
structure ResultRegister where
  /-- The word stored. -/
  value : Word64
  /-- Whether a write since reset has given the register this value. -/
  written : Bool
deriving DecidableEq, Repr

/-- `DST`: the bytes whose value is known, by address. In the canonical form of `Memory.wf` the addresses
rise strictly. An address not listed holds an unspecified byte (R32, R37). -/
abbrev Memory := List Host.Cell

/-- What the host can do between commands, apart from reading (R66, R210, R211). -/
inductive HostEvent where
  /-- Present a command word (R80). -/
  | command (cw : CommandWord)
  /-- Assert reset, which binds `SRC` (its length is `SRC_LEN`) and `IO_RELIABLE` (R210, R211). -/
  | reset (src : List Byte) (ioReliable : Bool)
  /-- Write a byte of `DST`, at one of its 2^33 addresses (R32, R66). -/
  | writeDst (addr : BitVec 33) (b : Byte)
deriving DecidableEq, Repr

/-- The machine: the block's state (R21), the parameters bound at reset (R9), and the two inputs of a
step (R20), the host's actions and the environment's answers, with the counters of the free values. -/
structure State where
  /-- `STATUS.phase` (R22). -/
  phase : Phase
  /-- The four header registers (R23). They hold a value, as R13 uses the word, exactly in phase `PARSED`;
  before, the words stored here are read by no command and by no host (R23, R35). -/
  header : Header
  /-- `STATUS.dst_valid` (R25). -/
  dstValid : Bool
  /-- `STATUS.dst_v` (R25). -/
  dstV : Variant
  /-- `ERR` (R26). -/
  err : Word32
  /-- `EINFO0` (R26). -/
  eInfo0 : Word32
  /-- `EINFO1` (R26). -/
  eInfo1 : Word32
  /-- `EINFO2` (R26). -/
  eInfo2 : Word32
  /-- `RES` (R29). It holds a value, as R13 uses the word, from its first write on; before, the word stored
  here is read by no command and by no host (R35). -/
  res : ResultRegister
  /-- `CUR` (R28). -/
  cur : Word64
  /-- `DST` (R32). -/
  dst : Memory
  /-- `ROWBUF` (R34): the bytes of the row being decoded; between commands its contents are
  unspecified, and the list is empty. -/
  rowBuf : List Byte
  /-- The parameter `SRC` (R9, R31); its length is the parameter `SRC_LEN`. -/
  src : List Byte
  /-- The parameter `IO_RELIABLE` (R9). -/
  ioReliable : Bool
  /-- Input: the environment's answers to the coming reads, the next one first (R20, R55). -/
  ioAnswers : List IOAnswer
  /-- Input: the host's coming actions, the next one first (R20, R66). The block holds no queue (R27). -/
  host : List HostEvent
  /-- The model's own: how many free draws have been made. -/
  draws : Nat
  /-- The model's own: for each time bytes of `DST` became unspecified, the latest first, the address below
  which they did. -/
  dstSpoils : List Nat
deriving DecidableEq, Repr

/-- The error kinds of R181 with their operands, what a `raise` carries (R184). -/
inductive ErrorKind where
  | invalidMagic (actual : Word32)
  | invalidDimensions (frameCount height width : Word32)
  | outOfRange (frameIndex frameCount : Word32)
  | shortRead
  | ioFailure
  | unsupportedWidth (width : Word32)
  | illegalState (phase : BitVec 1)
  | illegalCommand (word : CommandWord)
deriving DecidableEq, Repr

/-- The two ways a read of `SRC` fails (R53). -/
inductive ReadError where
  | shortRead
  | ioFailure
deriving DecidableEq, Repr

/-- The outcome of work that reads `SRC`: a value and the state after it, or the error that a read
raised and the state at that moment. -/
inductive ReadOutcome (α : Type) where
  | ok (value : α) (s : State)
  | raised (e : ReadError) (s : State)
deriving DecidableEq, Repr

/-- The faults of the machine. -/
inductive Fault where
  /-- Raised by `DECODE8` and `DECODE16` when the plane of the header registers is larger than the 2^33
  addresses of `DST` (R32, R58). Only a header that no `PARSE` latches leads here, so no run reaches it.
  Safe: the model stops. -/
  | planeOutsideDst
deriving DecidableEq, Repr

/-- The refusals of a step. (A host read that R35 refuses is no step: `ReadRefusal`.) -/
inductive Refusal where
  /-- Raised by `exec` for an instruction that has no meaning yet. Safe. No arm does. -/
  | notModelled (mnemonic : String)
  /-- Raised by the reset event when the host binds a stream of 2^63 bytes or more, which R9 excludes.
  Safe: the model has no move for it. -/
  | streamTooLong
deriving DecidableEq, Repr

/-- The state after reset (R37, R210). The parameters, which the host binds at reset (R211), are here an
empty stream and a reliable environment; nothing has been presented. DESIGN CHOICE (log entry 18): R37
gives the header registers and `RES` no value, and the words stored in them are zero. -/
def State.reset : State where
  phase := .unparsed
  header := { magic := 0, frameCount := 0, height := 0, width := 0 }
  dstValid := false
  dstV := .variant8
  err := 0
  eInfo0 := 0
  eInfo1 := 0
  eInfo2 := 0
  res := { value := 0, written := false }
  cur := 0
  dst := []
  rowBuf := []
  src := []
  ioReliable := true
  ioAnswers := []
  host := []
  draws := 0
  dstSpoils := []

end Sys2Proof.Machine
end

