-- ==== Sys2Proof/Machine/Operands.lean ====
section
/-!
DEFINITION. The constants of the format, the words of the header, and the arithmetic of the frame
indexer (spec/00_scope.md R7, spec/20_memory.md R51, spec/41_frame_indexer.md R131, R132, R136).
-/

namespace Sys2Proof.Machine

/-! ## Constants -/

/-- The magic number (R7). -/
def formatMagic : Word32 := 0x10101010

/-- The largest legal `frameCount` (R7). -/
def maxFrameCount : Word32 := 1023

/-- The largest legal `height` (R7). -/
def maxHeight : Word32 := 65535

/-- The largest legal `width` (R7). -/
def maxWidth : Word32 := 65535

/-- The header's length in bytes (R7), which is also where the first frame starts (R132). -/
def headerLength : Nat := 16

/-- The number of addresses of `DST` (R9, R32). -/
def dstSize : Nat := 2 ^ 33

/-- `SRC_LEN` is below this bound (R9). -/
def srcLimit : Nat := 2 ^ 63

/-! ## The header -/

/-- Four bytes, lowest offset first, as a little-endian word (R12, R50). -/
def le32 (b0 b1 b2 b3 : Byte) : Word32 := b3 ++ b2 ++ b1 ++ b0

/-- Byte `i` of a list of bytes that a read has returned. -/
def byteAt (bytes : List Byte) (i : Nat) : Byte := bytes.getD i 0

/-- The word at offset `o` of the bytes read (R51). -/
def wordAt (bytes : List Byte) (o : Nat) : Word32 :=
  le32 (byteAt bytes o) (byteAt bytes (o + 1)) (byteAt bytes (o + 2)) (byteAt bytes (o + 3))

/-- The four words of the header, in file order (R90, R110 line 3). -/
def headerOf (bytes : List Byte) : Header where
  magic := wordAt bytes 0
  frameCount := wordAt bytes 4
  height := wordAt bytes 8
  width := wordAt bytes 12

/-- The dimension check of R114: unsigned comparisons with the three bounds. -/
def Header.dimensionsLegal (h : Header) : Bool :=
  decide (h.frameCount ≤ maxFrameCount) && decide (h.height ≤ maxHeight) &&
    decide (h.width ≤ maxWidth)

/-! ## The frame indexer's functions -/

/-- `rowBytes(width) = width + floor(width / 4)` (R131), exact, on naturals (R136). -/
def rowBytes (width : Nat) : Nat := width + width / 4

/-- `offset(fi, height, width)` in unsigned 64-bit arithmetic (R132). -/
def frameOffset (fi height width : Word32) : Word64 :=
  16 + fi.setWidth 64 * height.setWidth 64 * BitVec.ofNat 64 (rowBytes width.toNat)

/-- The file length that a header implies, `16 + frameCount*height*rowBytes` (R62, R63). The block never
checks it. -/
def expectedLength (h : Header) : Nat :=
  headerLength + h.frameCount.toNat * h.height.toNat * rowBytes h.width.toNat

/-! ## The plane in `DST` -/

/-- Bytes per sample: 1 for Variant 8, 2 for Variant 16 (R58, R163). -/
def Variant.bps : Variant → Nat
  | .variant8 => 1
  | .variant16 => 2

/-- The number of bytes of a plane, `height*width*bps` (R32). -/
def planeBytes (v : Variant) (h : Header) : Nat := h.height.toNat * h.width.toNat * v.bps

end Sys2Proof.Machine
end

