-- ==== Sys2Proof/Machine/Flags.lean ====
section
/-!
DEFINITION. The phase and the two flags of `STATUS` (spec/10_state.md R22, R25). The block has no other
flag or condition code.
-/

namespace Sys2Proof.Machine

/-- `STATUS.phase`: 0 is `UNPARSED`, 1 is `PARSED` (R22). -/
def Phase.bit : Phase → BitVec 1
  | .unparsed => 0
  | .parsed => 1

/-- The header registers as registers of type "optional" (R13): they hold a value in phase `PARSED` and none
in phase `UNPARSED` (R23). -/
def State.header? (s : State) : Option Header :=
  match s.phase with
  | .unparsed => none
  | .parsed => some s.header

/-- `RES` as a register of type "optional" (R13): it holds no value from reset until its first write
(R29). -/
def ResultRegister.value? (r : ResultRegister) : Option Word64 :=
  if r.written then some r.value else none

/-- `vbit` of a variant: 0 for Variant 8, 1 for Variant 16 (R160, R161). -/
def Variant.bit : Variant → BitVec 1
  | .variant8 => 0
  | .variant16 => 1

/-- The register `STATUS`: bit 0 `phase`, bit 1 `dst_valid`, bit 2 `dst_v`, bits 31:3 zero (R25). -/
def statusWord (s : State) : Word32 :=
  (0 : BitVec 29) ++ s.dstV.bit ++ BitVec.ofBool s.dstValid ++ s.phase.bit

/-- Clearing `dst_valid` when a decode has passed its checks (R163 line 4, R164). -/
def State.clearPlane (s : State) : State := { s with dstValid := false }

/-- Setting `dst_valid` and `dst_v` when a decode completes normally (R163 line 6). -/
def State.publishPlane (s : State) (v : Variant) : State :=
  { s with dstValid := true, dstV := v }

/-- Latching the header registers and entering `PARSED` (R110 line 6, R22, R23). -/
def State.latchHeader (s : State) (h : Header) : State := 
  { s with phase := .parsed, header := h }

end Sys2Proof.Machine
end

