-- ==== Sys2Proof/Machine/Group.lean ====
section
/-!
DEFINITION. The group functions and the row function (spec/42_bit_unpacker.md R140 to R148,
spec/30_encoding.md R91, R92). A shift of a byte drops what leaves its 8 bits, which is the mask that
R11 writes after a left shift.
-/

namespace Sys2Proof.Machine

/-- `Unpack16`: the 8 output bytes of a group, by the source's formulas (R141). -/
def unpack16 (b0 b1 b2 b3 b4 : Byte) : List Byte :=
  [b0,
   b1 &&& 0x03,
   ((b1 &&& 0xFC) >>> 2) ||| ((b2 &&& 0x03) <<< 6),
   (b2 &&& 0x0C) >>> 2,
   ((b2 &&& 0xF0) >>> 4) ||| ((b3 &&& 0x0F) <<< 4),
   (b3 &&& 0x30) >>> 4,
   ((b3 &&& 0xC0) >>> 6) ||| ((b4 &&& 0x3F) <<< 2),
   (b4 &&& 0xC0) >>> 6]

/-- `Unpack8`: the 4 output bytes of a group, by the source's formulas (R142). -/
def unpack8 (b0 b1 b2 b3 b4 : Byte) : List Byte :=
  [(b0 >>> 2) ||| ((b1 <<< 6) &&& 0xFF),
   (b1 >>> 4) ||| ((b2 <<< 4) &&& 0xFF),
   (b2 >>> 6) ||| ((b3 <<< 2) &&& 0xFF),
   b4]

/-- `Unpack_v` (R147, R163). -/
def unpackGroup : Variant → Byte → Byte → Byte → Byte → Byte → List Byte
  | .variant8 => unpack8
  | .variant16 => unpack16

/-- `UnpackRow_v`: the groups of a row in order, 5 packed bytes at a time (R147). -/
def unpackRow (v : Variant) : List Byte → List Byte
  | b0 :: b1 :: b2 :: b3 :: b4 :: rest => unpackGroup v b0 b1 b2 b3 b4 ++ unpackRow v rest
  | _ => []

/-- The output bytes as one number, the first byte in the lowest bits (R145 line 2, R146 line 2). -/
def packResult : List Byte → Word64
  | [] => 0
  | b :: rest => b.setWidth 64 ||| (packResult rest <<< 8)

/-- The group word `W`, `b0` in its lowest bits (R15, R52). -/
def groupWord (b0 b1 b2 b3 b4 : Byte) : BitVec 40 := b4 ++ b3 ++ b2 ++ b1 ++ b0

/-- Sample `k` of a group word: `W[10k+9:10k]` (R52, R91). -/
def sample (w : BitVec 40) (k : Nat) : BitVec 10 := w.extractLsb' (10 * k) 10

end Sys2Proof.Machine
end

