-- ==== Sys2Proof/Machine/Ops.lean ====
section
/-!
DEFINITION. The shared operations: `DST` byte by byte (spec/20_memory.md R58, R64), the read primitive on
`SRC` (R53 to R57), and the two completions of a command (spec/60_exceptions.md R181, R184, R185).
-/

namespace Sys2Proof.Machine

/-! ## `DST` -/

/-- The byte listed at an address, if the address is listed (R35). -/
def Memory.read : Memory → Nat → Option Byte
  | [], _ => none
  | c :: m, a => if c.1 = a then some c.2 else Memory.read m a

/-- Storing one byte, in address order (R58). -/
def Memory.write : Memory → Nat → Byte → Memory
  | [], a, b => [(a, b)]
  | c :: m, a, b =>
    if a < c.1 then (a, b) :: c :: m
    else if a = c.1 then (a, b) :: m
    else c :: Memory.write m a b

/-- `MemWrite`: storing the bytes of a list at rising addresses (R12, R58, R60). -/
def Memory.store : Memory → Nat → List Byte → Memory
  | m, _, [] => m
  | m, a, b :: rest => Memory.store (Memory.write m a b) (a + 1) rest

/-- Making every byte below `n` unspecified: none of them is listed any more (R32, R167). -/
def Memory.forgetBelow (m : Memory) (n : Nat) : Memory := m.filter (fun c => decide (n ≤ c.1))

/-- The canonical form: addresses strictly rising, all of them addresses of `DST`. -/
abbrev Memory.wf (m : Memory) : Prop :=
  m.Pairwise (fun c d => c.1 < d.1) ∧ ∀ c ∈ m, c.1 < dstSize

/-! ## Updates of the state -/

/-- Writing the four completion registers, as every command does (R26). -/
def State.withCompletion (s : State) (code info0 info1 info2 : Word32) : State :=
  { s with err := code, eInfo0 := info0, eInfo1 := info1, eInfo2 := info2 }

/-- Writing `RES`, which holds a value from then on (R13, R29). -/
def State.withResult (s : State) (r : Word64) : State := 
  { s with res := { value := r, written := true } }

/-- Moving the cursor (R28, R57). -/
def State.withCursor (s : State) (c : Word64) : State := { s with cur := c }

/-- Writing `DST` (R58). -/
def State.withDst (s : State) (m : Memory) : State := { s with dst := m }

/-- Filling or leaving the row buffer (R34). -/
def State.withRowBuf (s : State) (row : List Byte) : State := { s with rowBuf := row }

/-- The host's actions still to come. -/
def State.withHost (s : State) (events : List HostEvent) : State := { s with host := events }

/-- One free draw made. -/
def State.countDraw (s : State) : State := { s with draws := s.draws + 1 }

/-- The environment's answer to one read used up. -/
def State.useAnswer (s : State) : State := { s with ioAnswers := s.ioAnswers.tail }

/-- The bytes of `DST` below `n` became unspecified. -/
def State.noteSpoil (s : State) (n : Nat) : State := { s with dstSpoils := n :: s.dstSpoils }

/-! ## Reading `SRC` -/

/-- The environment's answer to the coming read (R20, R55): the next one the state lists, or a free
value where it lists none. -/
def State.nextAnswer (s : State) : IOAnswer :=
  match s.ioAnswers with
  | a :: _ => a
  | [] => Config.ioAnswer s.draws

/-- The bytes `SRC[addr], .., SRC[addr+n-1]` if they all exist, and `ShortRead` if not: all or nothing
(R53, R54). -/
def fetchBytes (addr : Word64) (n : Nat) (s : State) : ReadOutcome (List Byte) :=
  if addr.toNat + n ≤ s.src.length then .ok ((s.src.drop addr.toNat).take n) s
  else .raised .shortRead s

/-- `MemRead` without its effect on the cursor (R53 to R56), as `SNIFF` uses it (R118). A read of no byte
always succeeds; where `IO_RELIABLE` is false the environment may fail any other read, whatever
`addr` and `SRC_LEN` are. -/
def srcRead (addr : Word64) (n : Nat) (s : State) : ReadOutcome (List Byte) :=
  if n = 0 then .ok [] s
  else if s.ioReliable then fetchBytes addr n s
  else
    match s.nextAnswer with
    | .fail => .raised .ioFailure s.useAnswer.countDraw
    | .serve => fetchBytes addr n s.useAnswer.countDraw

/-- `MemRead` as `PARSE` and the decodes use it (R57): a read that returns bytes leaves the cursor behind
them, a read that raises leaves it unspecified. -/
def seekRead (addr : Word64) (n : Nat) (s : State) : ReadOutcome (List Byte) :=
  match srcRead addr n s with
  | .ok bytes t => .ok bytes (t.withCursor (addr + BitVec.ofNat 64 n))
  | .raised e t => .raised e (t.withCursor (Config.curAfterFailure t.draws)).countDraw

/-! ## Writing `DST` -/

/-- `MemWrite` on the state (R58). -/
def memWrite (addr : Nat) (bytes : List Byte) (s : State) : State :=
  s.withDst (Memory.store s.dst addr bytes)

/-- A decode that failed: every byte of the plane range becomes unspecified (R167, U6). -/
def spoilPlane (n : Nat) (s : State) : State :=
  (s.withDst (Memory.forgetBelow s.dst n)).noteSpoil n

/-! ## Completions -/

/-- The completion code (R181). -/
def ErrorKind.code : ErrorKind → Word32
  | .invalidMagic _ => 1
  | .invalidDimensions _ _ _ => 2
  | .outOfRange _ _ => 3
  | .shortRead => 4
  | .ioFailure => 5
  | .unsupportedWidth _ => 6
  | .illegalState _ => 7
  | .illegalCommand _ => 8

/-- What goes to `EINFO0` (R181). -/
def ErrorKind.info0 : ErrorKind → Word32
  | .invalidMagic actual => actual
  | .invalidDimensions frameCount _ _ => frameCount
  | .outOfRange frameIndex _ => frameIndex
  | .shortRead => 0
  | .ioFailure => 0
  | .unsupportedWidth width => width
  | .illegalState phase => phase.setWidth 32
  | .illegalCommand word => word.extractLsb' 0 32

/-- What goes to `EINFO1` (R181). -/
def ErrorKind.info1 : ErrorKind → Word32
  | .invalidDimensions _ height _ => height
  | .outOfRange _ frameCount => frameCount
  | .illegalCommand word => (word.extractLsb' 32 16).setWidth 32
  | .invalidMagic _ => 0
  | .shortRead => 0
  | .ioFailure => 0
  | .unsupportedWidth _ => 0
  | .illegalState _ => 0

/-- What goes to `EINFO2` (R181). -/
def ErrorKind.info2 : ErrorKind → Word32
  | .invalidDimensions _ _ width => width
  | .invalidMagic _ => 0
  | .outOfRange _ _ => 0
  | .shortRead => 0
  | .ioFailure => 0
  | .unsupportedWidth _ => 0
  | .illegalState _ => 0
  | .illegalCommand _ => 0

/-- The error completion of a read that failed (R53). -/
def ReadError.kind : ReadError → ErrorKind
  | .shortRead => .shortRead
  | .ioFailure => .ioFailure

/-- `raise E(info)`, the block's one exceptional event (R180, R184): it writes `ERR` and `EINFO0..2` and
nothing else; the command is over and the host takes the next step. There is no handler, and so no
return from one (R185). -/
def raise (e : ErrorKind) (s : State) : State := s.withCompletion e.code e.info0 e.info1 e.info2

/-- Normal completion (R26). -/
def completeOk (s : State) : State := s.withCompletion 0 0 0 0

end Sys2Proof.Machine
end

