-- ==== Sys2Proof/Machine/BitUnpacker.lean ====
section
/-!
DEFINITION. The group commands `UNPK8` and `UNPK16` (spec/42_bit_unpacker.md R145, R146). They are legal in
either phase and cannot fail.
-/

namespace Sys2Proof.Machine

/-- `UNPK8 b0..b4` (R146). -/
def execUnpk8 (b0 b1 b2 b3 b4 : Byte) (s : State) : Host.Outcome State Fault Refusal :=
  .next (completeOk (s.withResult (packResult (unpack8 b0 b1 b2 b3 b4))))

/-- `UNPK16 b0..b4` (R145). -/
def execUnpk16 (b0 b1 b2 b3 b4 : Byte) (s : State) : Host.Outcome State Fault Refusal :=
  .next (completeOk (s.withResult (packResult (unpack16 b0 b1 b2 b3 b4))))

end Sys2Proof.Machine
end

