-- ==== Sys2Proof/Machine/FrameIndexer.lean ====
section
/-!
DEFINITION. The frame indexer: `OFFSET` (spec/41_frame_indexer.md R130 to R136).
-/

namespace Sys2Proof.Machine

/-- `OFFSET fi` (R130). -/
def execOffset (fi : Word32) (s : State) : Host.Outcome State Fault Refusal :=
  match s.phase with
  | .unparsed => .next (raise (.illegalState 0) s)
  | .parsed =>
    if s.header.frameCount ≤ fi then .next (raise (.outOfRange fi s.header.frameCount) s)
    else .next (completeOk (s.withResult (frameOffset fi s.header.height s.header.width)))

end Sys2Proof.Machine
end

