-- ==== Sys2Proof/Machine/HeaderParser.lean ====
section
/-!
DEFINITION. The header parser: `PARSE` and `SNIFF` (spec/40_header_parser.md R110 to R119).
-/

namespace Sys2Proof.Machine

/-- What `PARSE` does with the header it has read: the magic first, then the dimensions, then the latch
(R110 lines 4 to 7, R113, R114, R115). -/
def finishParse (h : Header) (s : State) : State :=
  if h.magic ≠ formatMagic then raise (.invalidMagic h.magic) s
  else if h.dimensionsLegal = false then
    raise (.invalidDimensions h.frameCount h.height h.width) s
  else completeOk (s.latchHeader h)

/-- `PARSE` (R110). -/
def execParse (s : State) : Host.Outcome State Fault Refusal :=
  match s.phase with
  | .parsed => .next (raise (.illegalState 1) s)
  | .unparsed =>
    match seekRead 0 headerLength s with
    | .raised e t => .next (raise e.kind t)
    | .ok bytes t => .next (finishParse (headerOf bytes) t)

/-- The answer of the sniff: 1 if the word is the magic number, else 0, in 64 bits (R118 line 2). -/
def sniffResult (word : Word32) : Word64 := if word = formatMagic then 1 else 0

/-- `SNIFF` (R118). -/
def execSniff (s : State) : Host.Outcome State Fault Refusal :=
  match srcRead 0 4 s with
  | .raised e t => .next (raise e.kind t)
  | .ok bytes t => .next (completeOk (t.withResult (sniffResult (wordAt bytes 0))))

end Sys2Proof.Machine
end

