-- ==== Sys2Proof/Machine/PlaneDecode.lean ====
section
/-!
DEFINITION. The plane decode: `DECODE8` and `DECODE16` (spec/43_plane_decode.md R160 to R172).
-/

namespace Sys2Proof.Machine

/-- The group loop of R163 over the packed bytes of a row: each group of 5 bytes is unpacked and written
at `addr`, the next one behind it (R170). -/
def writeGroups (v : Variant) : Nat → List Byte → State → State
  | addr, b0 :: b1 :: b2 :: b3 :: b4 :: rest, s =>
    writeGroups v (addr + 4 * v.bps) rest (memWrite addr (unpackGroup v b0 b1 b2 b3 b4) s)
  | _, _, s => s

/-- One row of R163 once it stands in `ROWBUF`: its groups go to `DST` from address `r*w*bps` on. -/
def writeRow (v : Variant) (width r : Nat) (s : State) : State :=
  writeGroups v (r * width * v.bps) s.rowBuf s

/-- The row loop of R163: `rows` rows from row `r` on, each read whole into `ROWBUF` at its own offset
`base + r*rb` and then written; the first read that fails ends it (R167). -/
def decodeRows (v : Variant) (base : Word64) (width : Nat) : Nat → Nat → State → ReadOutcome Unit
  | 0, _, s => .ok () s
  | rows + 1, r, s =>
    match seekRead (base + BitVec.ofNat 64 (r * rowBytes width)) (rowBytes width) s with
    | .raised e t => .raised e t
    | .ok row t => decodeRows v base width rows (r + 1) (writeRow v width r (t.withRowBuf row))

/-- The seek before the first row (R163 line 4): `dst_valid` is cleared and the cursor set to the
frame's offset. -/
def beginDecode (base : Word64) (s : State) : State := s.clearPlane.withCursor base

/-- Lines 4 to 7 of R163: the rows, and then either completion (R164, R167). -/
def runDecode (v : Variant) (fi : Word32) (h : Header) (s : State) : State :=
  let base := frameOffset fi h.height h.width
  match decodeRows v base h.width.toNat h.height.toNat 0 (beginDecode base s) with
  | .ok _ t => completeOk ((t.withRowBuf []).publishPlane v)
  | .raised e t => raise e.kind (spoilPlane (planeBytes v h) (t.withRowBuf []))

/-- The shared sequence of both commands (R163), with its checks in the order of R183. -/
def decodePlane (v : Variant) (fi : Word32) (s : State) : Host.Outcome State Fault Refusal :=
  match s.phase with
  | .unparsed => .next (raise (.illegalState 0) s)
  | .parsed =>
    if s.header.frameCount ≤ fi then .next (raise (.outOfRange fi s.header.frameCount) s)
    else if s.header.width.toNat % 4 ≠ 0 then .next (raise (.unsupportedWidth s.header.width) s)
    else if dstSize < planeBytes v s.header then .fault .planeOutsideDst
    else .next (runDecode v fi s.header s)

/-- `DECODE8 fi` (R160). -/
def execDecode8 (fi : Word32) (s : State) : Host.Outcome State Fault Refusal :=
  decodePlane .variant8 fi s

/-- `DECODE16 fi` (R161). -/
def execDecode16 (fi : Word32) (s : State) : Host.Outcome State Fault Refusal :=
  decodePlane .variant16 fi s

end Sys2Proof.Machine
end

