-- ==== Sys2Proof/Machine/Dispatch.lean ====
section
/-!
DEFINITION. The meaning of every command (spec/30_encoding.md R82).
-/

namespace Sys2Proof.Machine

/-- Running one command to its completion (R20). -/
def exec (i : Instr) (s : State) : Host.Outcome State Fault Refusal :=
  match i with
  | .parse => Sys2Proof.Machine.execParse s
  | .sniff => Sys2Proof.Machine.execSniff s
  | .offset fi => Sys2Proof.Machine.execOffset fi s
  | .decode8 fi => Sys2Proof.Machine.execDecode8 fi s
  | .decode16 fi => Sys2Proof.Machine.execDecode16 fi s
  | .unpk8 b0 b1 b2 b3 b4 => Sys2Proof.Machine.execUnpk8 b0 b1 b2 b3 b4 s
  | .unpk16 b0 b1 b2 b3 b4 => Sys2Proof.Machine.execUnpk16 b0 b1 b2 b3 b4 s

end Sys2Proof.Machine
end

