-- ==== Sys2Proof/Machine/HostPort.lean ====
section
/-!
DEFINITION. The host's side of the block: what it can do between commands (spec/20_memory.md R66,
spec/70_reset_and_hazards.md R210, R211) and what it can read (spec/10_state.md R24, R30, R33, R35).
-/

namespace Sys2Proof.Machine

/-! ## What the host does -/

/-- Taking a presented command word: it is classified first, from the word alone (R86); an illegal word
completes with `IllegalCommand` and changes nothing but `ERR` and `EINFO0..2` (R85). -/
def takeCommand (cw : CommandWord) (s : State) : Host.Outcome State Fault Refusal :=
  match decode cw with
  | .ok i => exec i s
  | .error _ => .next (raise (.illegalCommand cw) s)

/-- The reset event (R210): every piece of state takes its value of R37, and the parameters are bound
(R211). What the host and the environment have still to come, and the counters of the free values,
are no state of the block and go on. -/
def resetBlock (src : List Byte) (ioReliable : Bool) (s : State) : State :=
  { State.reset with
    src := src, ioReliable := ioReliable, ioAnswers := s.ioAnswers, host := s.host,
    draws := s.draws, dstSpoils := dstSize :: s.dstSpoils }

/-- One action of the host between commands. -/
def runEvent (e : HostEvent) (s : State) : Host.Outcome State Fault Refusal :=
  match e with
  | .command cw => takeCommand cw s
  | .reset src ioReliable =>
    if src.length < srcLimit then .next (resetBlock src ioReliable s) else .refused .streamTooLong
  | .writeDst addr b => .next (memWrite addr.toNat [b] s)

/-! ## What the host reads -/

/-- What the read port returns: a register of 32 or of 64 bits (R30). -/
inductive RegValue where
  | word32 (w : Word32)
  | word64 (w : Word64)
deriving DecidableEq, Repr

/-- Why the read port gives a read no answer: R35 says that such a read "is refused" (also R13, D16, U11). The
block does not stop: a read has no side effect (R30), and the block takes the host's next command as if the
read had not been made. -/
inductive ReadRefusal where
  /-- A register that holds no value (R13, R35). -/
  | holdsNoValue
  /-- A register number above 11 (R30, R35). -/
  | noSuchRegister
deriving DecidableEq, Repr

/-- The host's read of a header register, or of a view of one. While the phase is `UNPARSED` it "holds no
value" (R23, R24), and the read "is refused" (R35). -/
def readHeader (f : Header → Word32) (s : State) : Except ReadRefusal RegValue :=
  match s.header? with
  | some h => .ok (.word32 (f h))
  | none => .error .holdsNoValue

/-- The view `ROWBYTES`, computed and not stored (R24). -/
def rowBytesView (h : Header) : Word32 := BitVec.ofNat 32 (rowBytes h.width.toNat)

/-- The host's read of `RES`. Until its first write it "holds no value" (R29), and the read "is refused"
(R35). -/
def readResult (s : State) : Except ReadRefusal RegValue :=
  match s.res.value? with
  | some r => .ok (.word64 r)
  | none => .error .holdsNoValue

/-- The host's read port (R30, R35): a register by its number, without side effect. -/
def readRegister (number : Nat) (s : State) : Except ReadRefusal RegValue :=
  match number with
  | 0 => .ok (.word32 (statusWord s))
  | 1 => .ok (.word32 s.err)
  | 2 => .ok (.word32 s.eInfo0)
  | 3 => .ok (.word32 s.eInfo1)
  | 4 => .ok (.word32 s.eInfo2)
  | 5 => readHeader Header.magic s
  | 6 => readHeader Header.frameCount s
  | 7 => readHeader Header.height s
  | 8 => readHeader Header.width s
  | 9 => readHeader rowBytesView s
  | 10 => readResult s
  | 11 => .ok (.word64 s.cur)
  | _ => .error .noSuchRegister

/-- How often the byte of `DST` at address `a` became unspecified: the number of its draw (U6, U10). -/
def State.drawOf (s : State) (a : Nat) : Nat := (s.dstSpoils.filter (fun n => decide (a < n))).length

/-- A byte of `DST` as the host reads it (R35): the byte last written there, or an unspecified byte, which
stays the same until the byte becomes unspecified again. -/
def readDst (addr : BitVec 33) (s : State) : Byte :=
  match Memory.read s.dst addr.toNat with
  | some b => b
  | none => Config.dstUnspecified (s.drawOf addr.toNat) addr.toNat

/-- A 16-bit little-endian read of `DST` by the host, at an even address (R52). The spec gives this read at
even addresses only. DESIGN CHOICE (log entry 17): an odd address gives the byte there and the byte at the
next address, and the next address after the last one, `2^33 - 1`, is 0. -/
def readDst16 (addr : BitVec 33) (s : State) : BitVec 16 := readDst (addr + 1) s ++ readDst addr s

/-- The metadata that the surrounding software derives from the header registers (R33). -/
structure Metadata where
  sizeX : Word32
  sizeY : Word32
  channels : Nat
  sizeT : Word32
  bitsPerPixel : Nat
  littleEndian : Bool
  indexed : Bool
  falseColor : Bool
deriving DecidableEq, Repr

/-- The metadata view for a decoder of variant `v`, known in full as soon as the phase is `PARSED`
(R33). -/
def metadata (v : Variant) (s : State) : Option Metadata :=
  s.header?.map fun h =>
    { sizeX := h.width, sizeY := h.height, channels := 1, sizeT := h.frameCount,
      bitsPerPixel := 8 * v.bps, littleEndian := true, indexed := false, falseColor := false }

end Sys2Proof.Machine
end

