-- ==== Sys2Proof/Machine/Step.lean ====
section
/-!
DEFINITION. One step: the host's next action, run to its completion (spec/10_state.md R20, R27). The
block has no program counter and fetches nothing: a command comes from the host.
-/

namespace Sys2Proof.Machine

/-- A step takes the host's next action. With none coming the block is idle: nothing in it acts between
commands (R20, R214). -/
def step (s : State) : Host.Outcome State Fault Refusal :=
  match s.host with
  | [] => .next s
  | e :: rest => runEvent e (s.withHost rest)

/-- The command word in the low `nbits` bits of `w` presented as the host's very next action. -/
def State.withFetchWord (s : State) (nbits w : Nat) : State :=
  s.withHost (.command (BitVec.ofNat 48 (w % 2 ^ nbits)) :: s.host)

end Sys2Proof.Machine
end

