-- ==== Sys2Proof/Machine/Assembler.lean ====
section
/-!
DEFINITION. The assembler syntax of spec/30_encoding.md R88: one command word a line, a mnemonic and at
most one operand list, numbers in decimal or in `0x` hexadecimal, `;` before a comment. A line is a
list of characters.
-/

namespace Sys2Proof.Machine

/-- The value of a digit in base 16. -/
def digitValue (c : Char) : Option Nat :=
  let n := c.toNat
  if 48 ≤ n ∧ n ≤ 57 then some (n - 48)
  else if 97 ≤ n ∧ n ≤ 102 then some (n - 87)
  else if 65 ≤ n ∧ n ≤ 70 then some (n - 55)
  else none

/-- The digits of a number, the most significant first, onto the value read so far. -/
def readDigits (base : Nat) : List Char → Nat → Option Nat
  | [], acc => some acc
  | c :: rest, acc =>
    match digitValue c with
    | some d => if d < base then readDigits base rest (acc * base + d) else none
    | none => none

/-- A number: decimal, or hexadecimal after `0x` (R88). -/
def readNumber : List Char → Option Nat
  | [] => none
  | '0' :: 'x' :: d :: rest => readDigits 16 (d :: rest) 0
  | c :: rest => readDigits 10 (c :: rest) 0

/-- A list of characters without its leading and trailing blanks. -/
def trim (l : List Char) : List Char :=
  ((l.dropWhile (fun c => c == ' ')).reverse.dropWhile (fun c => c == ' ')).reverse

/-- The operand numbers between the commas; no characters are no operands (R88). -/
def readOperands (l : List Char) : Option (List Nat) :=
  if l = [] then some []
  else (l.splitOnP (fun c => c == ',')).mapM (fun part => readNumber (trim part))

/-- The spelling of a mnemonic (R88). -/
def spelling : Mnemonic → List Char
  | .PARSE => ['P', 'A', 'R', 'S', 'E']
  | .SNIFF => ['S', 'N', 'I', 'F', 'F']
  | .OFFSET => ['O', 'F', 'F', 'S', 'E', 'T']
  | .DECODE8 => ['D', 'E', 'C', 'O', 'D', 'E', '8']
  | .DECODE16 => ['D', 'E', 'C', 'O', 'D', 'E', '1', '6']
  | .UNPK8 => ['U', 'N', 'P', 'K', '8']
  | .UNPK16 => ['U', 'N', 'P', 'K', '1', '6']

/-- The mnemonic that a word spells. -/
def readMnemonic (l : List Char) : Option Mnemonic :=
  [Mnemonic.PARSE, .SNIFF, .OFFSET, .DECODE8, .DECODE16, .UNPK8, .UNPK16].find?
    (fun m => decide (spelling m = l))

/-- The parts of a line of text, its comment left out (R88). -/
def readLine (text : List Char) : Option AsmLine :=
  let line := trim (text.takeWhile (fun c => c != ';'))
  match readMnemonic (line.takeWhile (fun c => c != ' ')),
      readOperands (trim (line.dropWhile (fun c => c != ' '))) with
  | some m, some operands => some ⟨m, operands⟩
  | _, _ => none

/-- The command that a line writes, if its operand numbers are as many as the mnemonic takes. -/
def lineInstr (l : AsmLine) : Option Instr :=
  match l.mnemonic, l.operands with
  | .PARSE, [] => some .parse
  | .SNIFF, [] => some .sniff
  | .OFFSET, [fi] => some (.offset (BitVec.ofNat 32 fi))
  | .DECODE8, [fi] => some (.decode8 (BitVec.ofNat 32 fi))
  | .DECODE16, [fi] => some (.decode16 (BitVec.ofNat 32 fi))
  | .UNPK8, [b0, b1, b2, b3, b4] =>
    some (.unpk8 (BitVec.ofNat 8 b0) (BitVec.ofNat 8 b1) (BitVec.ofNat 8 b2) (BitVec.ofNat 8 b3)
      (BitVec.ofNat 8 b4))
  | .UNPK16, [b0, b1, b2, b3, b4] =>
    some (.unpk16 (BitVec.ofNat 8 b0) (BitVec.ofNat 8 b1) (BitVec.ofNat 8 b2) (BitVec.ofNat 8 b3)
      (BitVec.ofNat 8 b4))
  | _, _ => none

/-- Assembling a line: only a well-formed one has a command word (R88). -/
def assembleLine (l : AsmLine) : Option CommandWord :=
  if l.wellFormed then (lineInstr l).map encode else none

/-- Assembling a line of text (R88). -/
def assemble (text : List Char) : Option CommandWord :=
  match readLine text with
  | some l => assembleLine l
  | none => none

end Sys2Proof.Machine
end

