-- ==== Sys2Proof/Safety.lean ====
section
/-!
DEFINITION. The terms the statements use: the invariant of the machine, the meaning of a pixel as a
slice of the file's bit stream, and what a read of the environment needs.
-/

namespace Sys2Proof.Machine

/-- The four bounds of the header registers in phase `PARSED` (spec/10_state.md R39). -/
abbrev Header.Legal (h : Header) : Prop :=
  h.magic = 0x10101010 ∧ h.frameCount.toNat ≤ 1023 ∧ h.height.toNat ≤ 65535 ∧
    h.width.toNat ≤ 65535

/-- The phase is `PARSED`, and the header registers hold these values (R22, R23). -/
abbrev State.HoldsHeader (s : State) (h : Header) : Prop := s.phase = .parsed ∧ s.header = h

/-- The invariant that every step keeps. -/
structure State.Inv (s : State) : Prop where
  /-- `DST` is in canonical form. -/
  dst_wf : Memory.wf s.dst
  /-- `SRC_LEN` is below 2^63 (R9). -/
  src_short : s.src.length < 2 ^ 63
  /-- Completion codes 9 to 255 are never produced, and `ERR[31:8]` is zero (R26, R181). -/
  err_code : s.err.toNat ≤ 8
  /-- `ROWBUF` carries nothing from one command to the next (R34). -/
  rowBuf_empty : s.rowBuf = []
  /-- In phase `PARSED` the header registers are legal and are the first 16 bytes of `SRC` (R23, R31,
  R39). -/
  header_of_src : s.phase = .parsed →
    s.header.Legal ∧ 16 ≤ s.src.length ∧ s.header = headerOf (s.src.take 16)
  /-- While `dst_valid` is 1 a header has been parsed, its width is a multiple of 4, and no byte of the
  plane is unspecified (R25, R164, R166). -/
  plane_specified : s.dstValid = true → s.phase = .parsed ∧ s.header.width.toNat % 4 = 0 ∧
    ∀ a, a < planeBytes s.dstV s.header → (Memory.read s.dst a).isSome = true

/-- A step that ends in a next state. -/
def Completes (o : Host.Outcome State Fault Refusal) : Prop := ∃ t, o = .next t

/-- The environment lets the coming read go on: it may not fail it, or it chooses not to (R55). -/
abbrev EnvServes (s : State) : Prop := s.ioReliable = true ∨ s.nextAnswer = .serve

/-- The environment may fail the coming read, and chooses to (R55). -/
abbrev EnvFails (s : State) : Prop := s.ioReliable = false ∧ s.nextAnswer = .fail

/-- The state once the environment has answered one read of one byte or more: the answer is used up
where it was asked for. -/
def State.afterAnswer (s : State) : State :=
  if s.ioReliable then s else s.useAnswer.countDraw

/-- The clauses of R85: what makes a word illegal. -/
abbrev IllegalWord (cw : CommandWord) : Prop :=
  (opField cw = 0x0 ∨ 0x6 ≤ opField cw) ∨ rsvField cw ≠ 0 ∨
    ((opField cw = 0x1 ∨ opField cw = 0x2 ∨ opField cw = 0x3) ∧ vField cw = 1) ∨
    ((opField cw = 0x1 ∨ opField cw = 0x2) ∧ immField cw ≠ 0) ∨
    ((opField cw = 0x3 ∨ opField cw = 0x4) ∧ immHigh cw ≠ 0)

/-- The offset of frame `fi`, in naturals (R62, R132). -/
def frameStart (fi : Word32) (h : Header) : Nat :=
  16 + fi.toNat * h.height.toNat * rowBytes h.width.toNat

/-- What a decode needs beside its `SRC` bytes: a parsed header, a frame index in range, and a width that
is a multiple of 4 (R183, checks 2 to 4). -/
abbrev DecodeChecksPass (fi : Word32) (h : Header) (s : State) : Prop :=
  s.HoldsHeader h ∧ fi < h.frameCount ∧ h.width.toNat % 4 = 0

/-- The frame's bytes all lie in `SRC`, or there are none to read (R54, R56). -/
abbrev FrameInSrc (fi : Word32) (h : Header) (s : State) : Prop :=
  h.height.toNat * rowBytes h.width.toNat = 0 ∨
    frameStart fi h + h.height.toNat * rowBytes h.width.toNat ≤ s.src.length

/-- The decode command of a variant: `DECODE8` or `DECODE16`. -/
def decodeInstr : Variant → Word32 → Instr
  | .variant8, fi => .decode8 fi
  | .variant16, fi => .decode16 fi

/-- `SRC[n]` (R31), for an offset below `SRC_LEN`. -/
def srcByte (src : List Byte) (n : Nat) : Byte := src.getD n 0

/-- The group word of the 5 bytes from an offset of `SRC` on (R15). -/
def groupAt (src : List Byte) (o : Nat) : BitVec 40 :=
  groupWord (srcByte src o) (srcByte src (o + 1)) (srcByte src (o + 2)) (srcByte src (o + 3))
    (srcByte src (o + 4))

/-- The 10-bit sample of row `r` and column `c` of the frame that starts at `start`: sample `c mod 4` of
group `c / 4` of the row (R52, R62, R64, R170). -/
def pixel (src : List Byte) (start width r c : Nat) : BitVec 10 :=
  sample (groupAt src (start + r * rowBytes width + 5 * (c / 4))) (c % 4)

/-- The packed bytes of row `r` of the frame that starts at `start` (R62). -/
def packedRow (src : List Byte) (start width r : Nat) : List Byte :=
  (src.drop (start + r * rowBytes width)).take (rowBytes width)

end Sys2Proof.Machine
end

