-- ==== Sys2Proof/Certificates/Slice0/Obligations.lean ====
section
/-!
DEFINITION. The statements for the provers. Where a statement writes a next state as `{ s with … }`, every
field it does not name is as before the command: that is the command's frame.
-/

open Sys2Proof Sys2Proof.Machine

/-! ## Reset, the host's actions, and a step -/

/-- spec/10_state.md R37: phase and flags 0, `ERR` and `EINFO0..2` 0, `CUR` 0; header registers, `ROWBYTES`
and `RES` hold no value, so the read port refuses numbers 5 to 10; no byte of `DST` is known. -/
def Obligations.ResetStateValues : Prop :=
  State.reset.phase = .unparsed ∧ statusWord State.reset = 0 ∧ State.reset.err = 0 ∧
    State.reset.eInfo0 = 0 ∧ State.reset.eInfo1 = 0 ∧ State.reset.eInfo2 = 0 ∧
    State.reset.header? = none ∧ State.reset.res.value? = none ∧ State.reset.cur = 0 ∧
    (∀ n, 5 ≤ n → n ≤ 10 → readRegister n State.reset = .error .holdsNoValue) ∧
    (∀ a, Memory.read State.reset.dst a = none)

/-- spec/70_reset_and_hazards.md R210, R211: the reset event binds the stream and `IO_RELIABLE` and puts
every piece of state at its value of R37, from whatever state. (That the counters and the coming inputs
go on is the model's: log entries 2, 3, 5 and 13; so are the words stored in the registers that hold no
value, which are again those of `State.reset`: log entry 18.) -/
def Obligations.ResetEventRestoresReset : Prop :=
  ∀ (s : State) (src : List Byte) (rel : Bool) (rest : List HostEvent),
    s.host = .reset src rel :: rest → src.length < 2 ^ 63 →
    step s = .next { State.reset with
      src := src, ioReliable := rel, ioAnswers := s.ioAnswers, host := rest, draws := s.draws,
      dstSpoils := dstSize :: s.dstSpoils }

/-- spec/10_state.md R20, R27, spec/70_reset_and_hazards.md R214: with no action of the host coming, the
block is idle. (That a step then repeats the state is the model's: log entry 1.) -/
def Obligations.IdleStepChangesNothing : Prop :=
  ∀ s : State, s.host = [] → step s = .next s

/-- A step runs the decoded command: when the host's next action presents a word that decodes to `i`, the
step is `exec` of `i` on the state without that action (R20, R86). There is no program counter. -/
def Obligations.StepRunsDecodedCommand : Prop :=
  ∀ (s : State) (cw : CommandWord) (rest : List HostEvent) (i : Instr),
    s.host = .command cw :: rest → decode cw = .ok i → step s = exec i (s.withHost rest)

/-- spec/30_encoding.md R85, spec/60_exceptions.md R181 code 8: the illegal words are those that no command
decodes from; each, the all-zero word among them, completes with `IllegalCommand` and changes nothing but
`ERR` and `EINFO0..2`, in either phase. -/
def Obligations.IllegalWordsComplete : Prop :=
  (∀ cw : CommandWord, IllegalWord cw ↔ ∀ i, decode cw ≠ .ok i) ∧
  (∀ (s : State) (cw : CommandWord) (rest : List HostEvent),
    s.host = .command cw :: rest → IllegalWord cw →
    step s = .next { s with
      host := rest, err := 8, eInfo0 := cw.extractLsb' 0 32,
      eInfo1 := (cw.extractLsb' 32 16).setWidth 32, eInfo2 := 0 }) ∧
  IllegalWord 0

/-- spec/20_memory.md R66: a byte that the host writes to `DST` is what the host then reads there; every
other byte of `DST` and every register is as before. (That the host may write `DST`, against R190, and
that the flags stay, is the model's reading: log entry 8.) -/
def Obligations.HostWritesDst : Prop :=
  ∀ (s : State) (addr : BitVec 33) (b : Byte) (rest : List HostEvent),
    s.host = .writeDst addr b :: rest →
    ∃ m, step s = .next { s with host := rest, dst := m } ∧
      readDst addr { s with host := rest, dst := m } = b ∧
      ∀ a, a ≠ addr.toNat → Memory.read m a = Memory.read s.dst a

/-! ## Encodings -/

/-- Seven words written out from the table of spec/30_encoding.md R82 and the examples of R88. -/
def Obligations.SampleWordsDecode : Prop :=
  decode 0x100000000000 = .ok .parse ∧ decode 0x200000000000 = .ok .sniff ∧
    decode 0x300000000002 = .ok (.offset 2) ∧ decode 0x4000FFFFFFFF = .ok (.decode8 0xFFFFFFFF) ∧
    decode 0x480000000000 = .ok (.decode16 0) ∧
    decode 0x50AB00000000 = .ok (.unpk8 0x00 0x00 0x00 0x00 0xAB) ∧
    decode 0x580504030201 = .ok (.unpk16 0x01 0x02 0x03 0x04 0x05)

/-- Every command, with every operand, decodes from its own word (R82, R83). -/
def Obligations.DecodeOfEncode : Prop := ∀ i : Instr, decode (encode i) = .ok i

/-- Every word that decodes is the word of what it decodes to: no bit of a legal word is ignored (R82, R83,
R85). -/
def Obligations.EncodeOfDecode : Prop :=
  ∀ (cw : CommandWord) (i : Instr), decode cw = .ok i → encode i = cw

/-- The decoder, written from the clauses of R85, agrees with the table of matches and masks of R82: a word
selects a row exactly when it decodes to a command of that row's mnemonic, and no word selects two. -/
def Obligations.DecoderAgreesWithOpcodeMap : Prop :=
  (∀ (cw : CommandWord) (row : OpcodeRow), row ∈ opcodeRows →
    (row.selects cw = true ↔ ∃ i, decode cw = .ok i ∧ i.line.mnemonic = row.mnemonic)) ∧
  (∀ (cw : CommandWord) (row row' : OpcodeRow), row ∈ opcodeRows → row' ∈ opcodeRows →
    row.selects cw = true → row'.selects cw = true → row = row')

/-- spec/30_encoding.md R81: a command word travels as 6 bytes, least significant byte first; from those
bytes the decoder reads what it reads from the word, and bytes of another number carry no command. (The
last clause is the model's choice: log entry 16.) -/
def Obligations.TransportCarriesTheWord : Prop :=
  (∀ (cw : CommandWord) (k : Nat), k < 6 → (toTransport cw)[k]? = some (cw.extractLsb' (8 * k) 8)) ∧
  (∀ cw : CommandWord, decodeBytes (toTransport cw) = decode cw) ∧
  (∀ bytes : List Byte, bytes.length ≠ 6 → decodeBytes bytes = .error .length)

/-- spec/30_encoding.md R88: a line assembles to a word exactly when it is the line of a command, and then
to that command's word. -/
def Obligations.AssemblyLineEncodesItsCommand : Prop :=
  ∀ (l : AsmLine) (cw : CommandWord),
    assembleLine l = some cw ↔ ∃ i : Instr, i.line = l ∧ encode i = cw

/-! ## The group commands -/

/-- spec/42_bit_unpacker.md R145: the word, the result, and the frame of `UNPK16`, in every state. -/
def Obligations.Unpk16Result : Prop :=
  ∀ (b0 b1 b2 b3 b4 : Byte) (s : State),
    encode (.unpk16 b0 b1 b2 b3 b4) = (0x58 : BitVec 8) ++ groupWord b0 b1 b2 b3 b4 ∧
    ∃ o0 o1 o2 o3 o4 o5 o6 o7 : Byte,
      unpack16 b0 b1 b2 b3 b4 = [o0, o1, o2, o3, o4, o5, o6, o7] ∧
      exec (.unpk16 b0 b1 b2 b3 b4) s = .next { s with
        res := ⟨o7 ++ o6 ++ o5 ++ o4 ++ o3 ++ o2 ++ o1 ++ o0, true⟩,
        err := 0, eInfo0 := 0, eInfo1 := 0, eInfo2 := 0 } ∧
      (o7 ++ o6 ++ o5 ++ o4 ++ o3 ++ o2 ++ o1 ++ o0 : Word64) =
        (sample (groupWord b0 b1 b2 b3 b4) 3).setWidth 16 ++
          (sample (groupWord b0 b1 b2 b3 b4) 2).setWidth 16 ++
          (sample (groupWord b0 b1 b2 b3 b4) 1).setWidth 16 ++
          (sample (groupWord b0 b1 b2 b3 b4) 0).setWidth 16

/-- spec/42_bit_unpacker.md R146: the word, the result, and the frame of `UNPK8`, in every state;
`RES[63:32]` is zero and `RES[31:24]` is `b4`. -/
def Obligations.Unpk8Result : Prop :=
  ∀ (b0 b1 b2 b3 b4 : Byte) (s : State),
    encode (.unpk8 b0 b1 b2 b3 b4) = (0x50 : BitVec 8) ++ groupWord b0 b1 b2 b3 b4 ∧
    ∃ p0 p1 p2 p3 : Byte,
      unpack8 b0 b1 b2 b3 b4 = [p0, p1, p2, p3] ∧ p3 = b4 ∧
      (∀ k, k < 4 → [p0, p1, p2, p3][k]? =
        some ((sample (groupWord b0 b1 b2 b3 b4) k >>> 2).setWidth 8)) ∧
      exec (.unpk8 b0 b1 b2 b3 b4) s = .next { s with
        res := ⟨(0 : Word32) ++ (p3 ++ p2 ++ p1 ++ p0 : Word32), true⟩,
        err := 0, eInfo0 := 0, eInfo1 := 0, eInfo2 := 0 }

/-- spec/42_bit_unpacker.md R141, R143: bytes `2k` and `2k+1` of `Unpack16` are sample `k`, the slice
`W[10k+9:10k]` of the group word, zero-extended to 16 bits, and the four samples give `W` back. -/
def Obligations.Unpack16IsTheBitStream : Prop :=
  ∀ (b0 b1 b2 b3 b4 : Byte),
    (∀ k, k < 4 → ∃ lo hi : Byte,
      (unpack16 b0 b1 b2 b3 b4)[2 * k]? = some lo ∧
      (unpack16 b0 b1 b2 b3 b4)[2 * k + 1]? = some hi ∧
      hi ++ lo = (sample (groupWord b0 b1 b2 b3 b4) k).setWidth 16) ∧
    groupWord b0 b1 b2 b3 b4 =
      sample (groupWord b0 b1 b2 b3 b4) 3 ++ sample (groupWord b0 b1 b2 b3 b4) 2 ++
        sample (groupWord b0 b1 b2 b3 b4) 1 ++ sample (groupWord b0 b1 b2 b3 b4) 0

/-- spec/42_bit_unpacker.md R143: `Unpack16` is a bijection between the groups and the four-tuples of 10-bit
samples: the outputs of two groups agree only if the groups do, and every four samples are those of a
group. -/
def Obligations.Unpack16LosesNothing : Prop :=
  (∀ b0 b1 b2 b3 b4 c0 c1 c2 c3 c4 : Byte,
    unpack16 b0 b1 b2 b3 b4 = unpack16 c0 c1 c2 c3 c4 →
    [b0, b1, b2, b3, b4] = [c0, c1, c2, c3, c4]) ∧
  (∀ s0 s1 s2 s3 : BitVec 10, ∃ b0 b1 b2 b3 b4 : Byte,
    unpack16 b0 b1 b2 b3 b4 =
      [s0.extractLsb' 0 8, (s0.extractLsb' 8 2).setWidth 8,
       s1.extractLsb' 0 8, (s1.extractLsb' 8 2).setWidth 8,
       s2.extractLsb' 0 8, (s2.extractLsb' 8 2).setWidth 8,
       s3.extractLsb' 0 8, (s3.extractLsb' 8 2).setWidth 8])

/-- spec/42_bit_unpacker.md R144: byte `k` of `Unpack8` is the top 8 bits of the sample whose low and high
bytes are bytes `2k` and `2k+1` of `Unpack16`. -/
def Obligations.Unpack8TruncatesUnpack16 : Prop :=
  ∀ (b0 b1 b2 b3 b4 : Byte) (k : Nat), k < 4 →
    ∃ lo hi p : Byte,
      (unpack16 b0 b1 b2 b3 b4)[2 * k]? = some lo ∧
      (unpack16 b0 b1 b2 b3 b4)[2 * k + 1]? = some hi ∧
      (unpack8 b0 b1 b2 b3 b4)[k]? = some p ∧ p = ((hi ++ lo) >>> 2).setWidth 8

/-- spec/42_bit_unpacker.md R148: lanes do not interact. Two groups that agree in `W[10k+9:10k]` agree in
output `k` of either variant. -/
def Obligations.LanesDoNotInteract : Prop :=
  ∀ (b0 b1 b2 b3 b4 c0 c1 c2 c3 c4 : Byte) (k : Nat), k < 4 →
    sample (groupWord b0 b1 b2 b3 b4) k = sample (groupWord c0 c1 c2 c3 c4) k →
    (unpack16 b0 b1 b2 b3 b4)[2 * k]? = (unpack16 c0 c1 c2 c3 c4)[2 * k]? ∧
    (unpack16 b0 b1 b2 b3 b4)[2 * k + 1]? = (unpack16 c0 c1 c2 c3 c4)[2 * k + 1]? ∧
    (unpack8 b0 b1 b2 b3 b4)[k]? = (unpack8 c0 c1 c2 c3 c4)[k]?

/-- spec/42_bit_unpacker.md R147: a row of `5n` bytes unpacks to `4n*bps` bytes, and output byte `j` of group
`g` comes from the 5 bytes from `5g` on. -/
def Obligations.RowUnpacksGroupByGroup : Prop :=
  ∀ (v : Variant) (n : Nat) (row : List Byte), row.length = 5 * n →
    (unpackRow v row).length = 4 * n * v.bps ∧
    ∀ g j, g < n → j < 4 * v.bps →
      (unpackRow v row)[4 * v.bps * g + j]? =
        (unpackGroup v (byteAt row (5 * g)) (byteAt row (5 * g + 1)) (byteAt row (5 * g + 2))
          (byteAt row (5 * g + 3)) (byteAt row (5 * g + 4)))[j]?

/-! ## The header parser -/

/-- spec/40_header_parser.md R111: the normal completion of `PARSE`, in phase `UNPARSED` on a stream whose
first 16 bytes are a legal header and are delivered. (The used-up answer and the
draw counted are the model's records: log entries 2 and 3.) -/
def Obligations.ParseLatchesHeader : Prop :=
  ∀ s : State, s.phase = .unparsed → 16 ≤ s.src.length → EnvServes s →
    (headerOf (s.src.take 16)).Legal →
    exec .parse s = .next { s.afterAnswer with
      phase := .parsed, header := headerOf (s.src.take 16), cur := 16,
      err := 0, eInfo0 := 0, eInfo1 := 0, eInfo2 := 0 }

/-- spec/40_header_parser.md R113, R115: a wrong magic number is reported with its value, whatever the
dimensions are, and leaves the phase and `CUR = 16`. (The used-up answer and the
draw counted are the model's records: log entries 2 and 3.) -/
def Obligations.ParseReportsBadMagicFirst : Prop :=
  ∀ s : State, s.phase = .unparsed → 16 ≤ s.src.length → EnvServes s →
    wordAt s.src 0 ≠ 0x10101010 →
    exec .parse s = .next { s.afterAnswer with
      cur := 16, err := 1, eInfo0 := wordAt s.src 0, eInfo1 := 0, eInfo2 := 0 }

/-- spec/40_header_parser.md R114: after a right magic number, the dimension check fails exactly when a
field is above its bound, and the error carries all three words; no further check is made. (The
used-up answer and the draw counted are the model's records: log entries 2 and 3.) -/
def Obligations.ParseReportsBadDimensions : Prop :=
  ∀ s : State, s.phase = .unparsed → 16 ≤ s.src.length → EnvServes s →
    wordAt s.src 0 = 0x10101010 →
    (1023 < (wordAt s.src 4).toNat ∨ 65535 < (wordAt s.src 8).toNat ∨
        65535 < (wordAt s.src 12).toNat →
      exec .parse s = .next { s.afterAnswer with
        cur := 16, err := 2, eInfo0 := wordAt s.src 4, eInfo1 := wordAt s.src 8,
        eInfo2 := wordAt s.src 12 }) ∧
    ((wordAt s.src 4).toNat ≤ 1023 → (wordAt s.src 8).toNat ≤ 65535 →
        (wordAt s.src 12).toNat ≤ 65535 →
      ∃ t, exec .parse s = .next t ∧ t.err = 0 ∧
        t.HoldsHeader ⟨wordAt s.src 0, wordAt s.src 4, wordAt s.src 8, wordAt s.src 12⟩)

/-- spec/40_header_parser.md R112: `PARSE` in phase `PARSED` is refused before anything is read. -/
def Obligations.SecondParseIsIllegalState : Prop :=
  ∀ s : State, s.phase = .parsed →
    exec .parse s = .next { s with err := 7, eInfo0 := 1, eInfo1 := 0, eInfo2 := 0 }

/-- spec/40_header_parser.md R116: a failed read of `PARSE` is `ShortRead` on a stream of fewer than 16
bytes, `IOFailure` where the environment fails it; everything but `CUR`, the completion registers and
the environment's own records is as before. (The records are the model's: log entries 2 and 3.) -/
def Obligations.ParseReadFailure : Prop :=
  ∀ s : State, s.phase = .unparsed →
    (EnvServes s → s.src.length < 16 →
      ∃ c, exec .parse s = .next { s.afterAnswer with
        cur := c, draws := s.afterAnswer.draws + 1, err := 4, eInfo0 := 0, eInfo1 := 0, eInfo2 := 0 }) ∧
    (EnvFails s →
      ∃ c, exec .parse s = .next { s.afterAnswer with
        cur := c, draws := s.afterAnswer.draws + 1, err := 5, eInfo0 := 0, eInfo1 := 0, eInfo2 := 0 })

/-- The frame of `PARSE` (R38, R111 to R116): it changes the phase and the header registers, `CUR`, and the
completion registers; no byte of `DST`, no flag of the plane, not `RES`. (The clause on `readDst` speaks of
unspecified bytes of `DST` too; that the host reads such a byte the same before and after is the model's:
log entry 5.) -/
def Obligations.ParseFrame : Prop :=
  ∀ s t : State, exec .parse s = .next t →
    t.dstValid = s.dstValid ∧ t.dstV = s.dstV ∧ t.res = s.res ∧ t.rowBuf = s.rowBuf ∧
    t.src = s.src ∧ t.ioReliable = s.ioReliable ∧ t.host = s.host ∧ t.dstSpoils = s.dstSpoils ∧
    (∀ a, Memory.read t.dst a = Memory.read s.dst a) ∧
    (∀ a, readDst a t = readDst a s) ∧
    (t.phase ≠ s.phase ∨ t.header ≠ s.header → t.err = 0)

/-- spec/40_header_parser.md R118: the normal completion of `SNIFF`, in either phase: `RES` is 1 or 0, and
`CUR` is left alone. (The used-up answer and the
draw counted are the model's records: log entries 2 and 3.) -/
def Obligations.SniffResult : Prop :=
  ∀ s : State, 4 ≤ s.src.length → EnvServes s →
    exec .sniff s = .next { s.afterAnswer with
      res := ⟨if wordAt s.src 0 = 0x10101010 then 1 else 0, true⟩,
      err := 0, eInfo0 := 0, eInfo1 := 0, eInfo2 := 0 }

/-- spec/40_header_parser.md R118, R119 (c): a failed read of `SNIFF` leaves `RES` and `CUR` as they were.
(That the environment's answer decides which error it is, is the model's form: log entries 2 and 11.) -/
def Obligations.SniffReadFailure : Prop :=
  ∀ s : State,
    (EnvServes s → s.src.length < 4 →
      exec .sniff s = .next { s.afterAnswer with
        err := 4, eInfo0 := 0, eInfo1 := 0, eInfo2 := 0 }) ∧
    (EnvFails s →
      exec .sniff s = .next { s.afterAnswer with
        err := 5, eInfo0 := 0, eInfo1 := 0, eInfo2 := 0 })

/-- The frame of `SNIFF` (R38, R118): it changes `RES` and the completion registers only, beside the
environment's own records. -/
def Obligations.SniffFrame : Prop :=
  ∀ s t : State, exec .sniff s = .next t →
    t.phase = s.phase ∧ t.header = s.header ∧ t.dstValid = s.dstValid ∧ t.dstV = s.dstV ∧
    t.cur = s.cur ∧
    t.rowBuf = s.rowBuf ∧ t.src = s.src ∧ t.ioReliable = s.ioReliable ∧ t.host = s.host ∧
    t.dstSpoils = s.dstSpoils ∧ (∀ a, Memory.read t.dst a = Memory.read s.dst a) ∧
    (t.err ≠ 0 → t.res = s.res)

/-- spec/40_header_parser.md R119 (d): in a state of the invariant, in phase `PARSED`, a `SNIFF` whose read
is served answers 1. -/
def Obligations.SniffConfirmsParsedHeader : Prop :=
  ∀ (s : State) (h : Header), s.Inv → s.HoldsHeader h → EnvServes s →
    ∃ t, exec .sniff s = .next t ∧ t.err = 0 ∧ t.res = ⟨1, true⟩

/-! ## The frame indexer -/

/-- spec/41_frame_indexer.md R130, R132: the normal completion of `OFFSET`, with the offset of unbounded
integers, at most 5486603044876. -/
def Obligations.OffsetResult : Prop :=
  ∀ (s : State) (h : Header) (fi : Word32), s.HoldsHeader h → h.Legal → fi < h.frameCount →
    ∃ r : Word64,
      exec (.offset fi) s = .next { s with
        res := ⟨r, true⟩, err := 0, eInfo0 := 0, eInfo1 := 0, eInfo2 := 0 } ∧
      r.toNat = 16 + fi.toNat * h.height.toNat * (h.width.toNat + h.width.toNat / 4) ∧
      r.toNat ≤ 5486603044876

/-- spec/41_frame_indexer.md R133, R134: the phase check comes first, then the range check; `RES` and all
else stay as they were. -/
def Obligations.OffsetRefusals : Prop :=
  (∀ (s : State) (fi : Word32), s.phase = .unparsed →
    exec (.offset fi) s = .next { s with err := 7, eInfo0 := 0, eInfo1 := 0, eInfo2 := 0 }) ∧
  (∀ (s : State) (h : Header) (fi : Word32), s.HoldsHeader h → h.frameCount ≤ fi →
    exec (.offset fi) s = .next { s with
      err := 3, eInfo0 := fi, eInfo1 := h.frameCount, eInfo2 := 0 })

/-- spec/41_frame_indexer.md R135 (e): the offsets of two neighbouring frames differ by
`height*rowBytes`. -/
def Obligations.OffsetIsLinear : Prop :=
  ∀ (s : State) (h : Header) (fi : Word32), s.HoldsHeader h → h.Legal →
    fi.toNat + 1 < h.frameCount.toNat →
    ∃ (t u : State) (p q : Word64),
      exec (.offset fi) s = .next t ∧ t.res = ⟨p, true⟩ ∧
      exec (.offset (fi + 1)) s = .next u ∧ u.res = ⟨q, true⟩ ∧
      q.toNat = p.toNat + h.height.toNat * rowBytes h.width.toNat

/-- The frame of `OFFSET`, `UNPK8` and `UNPK16` (R38, R130, R145, R146): they change `RES` and the completion
registers only, and read nothing of the environment. -/
def Obligations.OffsetAndGroupFrame : Prop :=
  ∀ (i : Instr), ((∃ fi, i = .offset fi) ∨ (∃ b0 b1 b2 b3 b4, i = .unpk8 b0 b1 b2 b3 b4) ∨
      (∃ b0 b1 b2 b3 b4, i = .unpk16 b0 b1 b2 b3 b4)) →
    ∀ s t : State, exec i s = .next t →
      t = { s with res := t.res, err := t.err, eInfo0 := t.eInfo0, eInfo1 := t.eInfo1,
                   eInfo2 := t.eInfo2 } ∧
      (∀ a, Memory.read t.dst a = Memory.read s.dst a) ∧ (t.err ≠ 0 → t.res = s.res)

/-! ## The plane decode -/

/-- spec/43_plane_decode.md R165: `DECODE8` and `DECODE16` check the phase, then the frame index, before any
read; nothing else changes, so a plane that was valid stays valid. -/
def Obligations.DecodeRefusals : Prop :=
  (∀ (s : State) (v : Variant) (fi : Word32), s.phase = .unparsed →
    exec (decodeInstr v fi) s = .next { s with err := 7, eInfo0 := 0, eInfo1 := 0, eInfo2 := 0 }) ∧
  (∀ (s : State) (h : Header) (v : Variant) (fi : Word32), s.HoldsHeader h →
    h.frameCount ≤ fi →
    exec (decodeInstr v fi) s = .next { s with
      err := 3, eInfo0 := fi, eInfo1 := h.frameCount, eInfo2 := 0 })

/-- spec/43_plane_decode.md R166: a width that is not a multiple of 4 is refused before any read, for every
frame index in range and every height; `width = 0` passes. -/
def Obligations.DecodeRefusesOddWidths : Prop :=
  ∀ (s : State) (h : Header) (v : Variant) (fi : Word32), s.HoldsHeader h →
    fi < h.frameCount →
    (h.width.toNat % 4 ≠ 0 →
      exec (decodeInstr v fi) s = .next { s with
        err := 6, eInfo0 := h.width, eInfo1 := 0, eInfo2 := 0 }) ∧
    (h.width = 0 → ∀ t, exec (decodeInstr v fi) s = .next t → t.err ≠ 6)

/-- spec/43_plane_decode.md R164: the normal completion of `DECODE8` and `DECODE16`, where the frame's bytes
exist and the environment is reliable. Byte `k` of row `r` of the plane is byte `k` of the unpacked row;
`DST` from the plane's end on is as before; the flags and `CUR` are as the rule says. (`ROWBUF` lists
nothing after it: log entry 4.) -/
def Obligations.DecodePublishesPlane : Prop :=
  ∀ (s : State) (h : Header) (v : Variant) (fi : Word32), DecodeChecksPass fi h s → h.Legal →
    s.ioReliable = true → FrameInSrc fi h s →
    ∃ m : Memory,
      exec (decodeInstr v fi) s = .next { s with
        dst := m, dstValid := true, dstV := v, rowBuf := [],
        cur := BitVec.ofNat 64 (frameStart fi h + h.height.toNat * rowBytes h.width.toNat),
        err := 0, eInfo0 := 0, eInfo1 := 0, eInfo2 := 0 } ∧
      (∀ r k, r < h.height.toNat → k < h.width.toNat * v.bps →
        Memory.read m (r * (h.width.toNat * v.bps) + k) =
          (unpackRow v (packedRow s.src (frameStart fi h) h.width.toNat r))[k]?) ∧
      (∀ a, planeBytes v h ≤ a → Memory.read m a = Memory.read s.dst a)

/-- spec/43_plane_decode.md R164, spec/20_memory.md R55: the same normal completion where the environment is
not reliable and serves each of the `height` row reads. (The used-up answers and the draws counted are the
model's records: log entries 2 and 3; `ROWBUF` lists nothing after it: log entry 4.) -/
def Obligations.DecodePublishesPlaneWhenServed : Prop :=
  ∀ (s : State) (h : Header) (v : Variant) (fi : Word32) (rest : List IOAnswer),
    DecodeChecksPass fi h s → h.Legal → s.ioReliable = false → 1 ≤ rowBytes h.width.toNat →
    s.ioAnswers = List.replicate h.height.toNat .serve ++ rest → FrameInSrc fi h s →
    ∃ m : Memory,
      exec (decodeInstr v fi) s = .next { s with
        dst := m, dstValid := true, dstV := v, rowBuf := [],
        cur := BitVec.ofNat 64 (frameStart fi h + h.height.toNat * rowBytes h.width.toNat),
        ioAnswers := rest, draws := s.draws + h.height.toNat,
        err := 0, eInfo0 := 0, eInfo1 := 0, eInfo2 := 0 } ∧
      (∀ r k, r < h.height.toNat → k < h.width.toNat * v.bps →
        Memory.read m (r * (h.width.toNat * v.bps) + k) =
          (unpackRow v (packedRow s.src (frameStart fi h) h.width.toNat r))[k]?) ∧
      (∀ a, planeBytes v h ≤ a → Memory.read m a = Memory.read s.dst a)

/-- spec/43_plane_decode.md R170, spec/20_memory.md R64, R52: after a normal `DECODE8` the byte at
`r*w + c` is the top 8 bits of pixel (`r`, `c`), a 10-bit slice of the file's bit stream; after a normal
`DECODE16` its low byte stands at `2(r*w + c)` and its two high bits, zero-extended, behind it. -/
def Obligations.DecodedPixelsAreStreamSlices : Prop :=
  ∀ (s t : State) (h : Header) (fi : Word32) (r c : Nat), DecodeChecksPass fi h s → h.Legal →
    r < h.height.toNat → c < h.width.toNat →
    (exec (.decode8 fi) s = .next t → t.err = 0 →
      Memory.read t.dst (r * h.width.toNat + c) =
        some ((pixel s.src (frameStart fi h) h.width.toNat r c).extractLsb' 2 8)) ∧
    (exec (.decode16 fi) s = .next t → t.err = 0 →
      Memory.read t.dst (2 * (r * h.width.toNat + c)) =
        some ((pixel s.src (frameStart fi h) h.width.toNat r c).extractLsb' 0 8) ∧
      Memory.read t.dst (2 * (r * h.width.toNat + c) + 1) =
        some (((pixel s.src (frameStart fi h) h.width.toNat r c).extractLsb' 8 2).setWidth 8))

/-- spec/43_plane_decode.md R164, R167, spec/10_state.md R25: whatever the environment answers, a decode
that passes its checks completes in one of two ways. Either `ERR = 0`, the frame's bytes exist and the
plane is published; or `ERR` is 4 or 5, `dst_valid` is 0 and no byte of the plane range is known. A host
that looks at `dst_valid` never takes a failed plane for a valid one. (That an unspecified byte is one not
listed is the model's form: log entry 5.) -/
def Obligations.DecodePublishesOrDisowns : Prop :=
  ∀ (s : State) (h : Header) (v : Variant) (fi : Word32), DecodeChecksPass fi h s → h.Legal →
    ∃ t, exec (decodeInstr v fi) s = .next t ∧ t.phase = s.phase ∧ t.header = s.header ∧
      t.res = s.res ∧
      t.eInfo0 = 0 ∧ t.eInfo1 = 0 ∧ t.eInfo2 = 0 ∧
      (∀ a, planeBytes v h ≤ a → Memory.read t.dst a = Memory.read s.dst a) ∧
      ((t.err = 0 ∧ t.dstValid = true ∧ t.dstV = v ∧ FrameInSrc fi h s ∧
          ∀ r k, r < h.height.toNat → k < h.width.toNat * v.bps →
            Memory.read t.dst (r * (h.width.toNat * v.bps) + k) =
              (unpackRow v (packedRow s.src (frameStart fi h) h.width.toNat r))[k]?) ∨
        ((t.err = 4 ∨ t.err = 5) ∧ t.dstValid = false ∧ t.dstV = s.dstV ∧
          ∀ a, a < planeBytes v h → Memory.read t.dst a = none))

/-- spec/43_plane_decode.md R167, spec/20_memory.md R54: with a reliable environment, a decode of a frame
that does not lie in `SRC` whole ends in `ShortRead`. -/
def Obligations.DecodeOfTruncatedFrameIsShortRead : Prop :=
  ∀ (s : State) (h : Header) (v : Variant) (fi : Word32), DecodeChecksPass fi h s → h.Legal →
    s.ioReliable = true → ¬ FrameInSrc fi h s →
    ∃ t, exec (decodeInstr v fi) s = .next t ∧ t.err = 4 ∧ t.dstValid = false

/-- spec/43_plane_decode.md R167, spec/20_memory.md R55: when the environment serves the first `k` row
reads and fails the next, the decode ends in `IOFailure` and asks the environment nothing more. (The list
of answers is the model's: log entries 2 and 11.) -/
def Obligations.DecodeStopsAtFailedRow : Prop :=
  ∀ (s : State) (h : Header) (v : Variant) (fi : Word32) (k : Nat) (rest : List IOAnswer),
    DecodeChecksPass fi h s → h.Legal → s.ioReliable = false →
    s.ioAnswers = List.replicate k .serve ++ .fail :: rest →
    k < h.height.toNat → 1 ≤ rowBytes h.width.toNat →
    frameStart fi h + k * rowBytes h.width.toNat ≤ s.src.length →
    ∃ t, exec (decodeInstr v fi) s = .next t ∧ t.err = 5 ∧ t.dstValid = false ∧
      t.ioAnswers = rest

/-- spec/43_plane_decode.md R168 (a), (b): a plane without pixels decodes without a read: nothing of `SRC`
is needed, `DST` is as before, and `CUR` is 16. (`ROWBUF` lists nothing after it: log entry 4.) -/
def Obligations.EmptyPlaneDecodes : Prop :=
  ∀ (s : State) (h : Header) (v : Variant) (fi : Word32), DecodeChecksPass fi h s →
    (h.height = 0 ∨ h.width = 0) →
    exec (decodeInstr v fi) s = .next { s with
      dstValid := true, dstV := v, rowBuf := [], cur := 16,
      err := 0, eInfo0 := 0, eInfo1 := 0, eInfo2 := 0 }

/-- The frame of `DECODE8` and `DECODE16` (R38, R164 to R167): beside the completion registers they change the
two flags, `CUR`, and `DST` below the plane's end, which is computed from the header registers. (The clause
on `readDst` speaks of unspecified bytes from the plane's end on too; that the host reads such a byte the
same before and after is the model's: log entry 5.) -/
def Obligations.DecodeFrame : Prop :=
  ∀ (s t : State) (v : Variant) (fi : Word32), exec (decodeInstr v fi) s = .next t →
    t.phase = s.phase ∧ t.header = s.header ∧ t.res = s.res ∧ t.src = s.src ∧
    t.ioReliable = s.ioReliable ∧ t.host = s.host ∧
    (s.phase = .unparsed → ∀ a, Memory.read t.dst a = Memory.read s.dst a) ∧
    (∀ h a, s.HoldsHeader h → planeBytes v h ≤ a →
      Memory.read t.dst a = Memory.read s.dst a) ∧
    (∀ h (a : BitVec 33), s.HoldsHeader h → planeBytes v h ≤ a.toNat →
      readDst a t = readDst a s) ∧
    (t.err = 3 ∨ t.err = 6 ∨ t.err = 7 →
      t.dstValid = s.dstValid ∧ t.dstV = s.dstV ∧ t.cur = s.cur ∧
        ∀ a, Memory.read t.dst a = Memory.read s.dst a)

/-- spec/43_plane_decode.md R171: for every pixel, the byte that `DECODE8` leaves is the 16-bit sample that
`DECODE16` of the same frame leaves, shifted right by 2. -/
def Obligations.VariantsAgree : Prop :=
  ∀ (s t u : State) (h : Header) (fi : Word32) (n : Nat), DecodeChecksPass fi h s → h.Legal →
    n < h.height.toNat * h.width.toNat →
    exec (.decode8 fi) s = .next t → t.err = 0 →
    exec (.decode16 fi) s = .next u → u.err = 0 →
    ∃ p lo hi : Byte,
      Memory.read t.dst n = some p ∧ Memory.read u.dst (2 * n) = some lo ∧
      Memory.read u.dst (2 * n + 1) = some hi ∧ p = ((hi ++ lo) >>> 2).setWidth 8

/-- spec/43_plane_decode.md R171: decoding is deterministic, and frames are independent. Two normal decodes of
one frame and variant leave the same plane whenever the frame's own bytes of `SRC` are the same, whatever
else differs in the two states; and the byte ranges of two frames do not overlap. -/
def Obligations.PlaneDependsOnItsFrameOnly : Prop :=
  (∀ (s s' t t' : State) (h : Header) (v : Variant) (fi : Word32),
    DecodeChecksPass fi h s → DecodeChecksPass fi h s' → h.Legal →
    (∀ n, frameStart fi h ≤ n →
      n < frameStart fi h + h.height.toNat * rowBytes h.width.toNat →
      srcByte s.src n = srcByte s'.src n) →
    exec (decodeInstr v fi) s = .next t → t.err = 0 →
    exec (decodeInstr v fi) s' = .next t' → t'.err = 0 →
    ∀ a, a < planeBytes v h → Memory.read t.dst a = Memory.read t'.dst a) ∧
  (∀ (h : Header) (fi fj : Word32), fi < fj →
    frameStart fi h + h.height.toNat * rowBytes h.width.toNat ≤ frameStart fj h)

/-- spec/70_reset_and_hazards.md R219, spec/20_memory.md R63: on a stream as long as its header implies, with a
reliable environment, every frame in range decodes normally, in either variant. -/
def Obligations.WholeFileDecodes : Prop :=
  ∀ (s : State) (h : Header) (v : Variant) (fi : Word32), s.Inv → DecodeChecksPass fi h s →
    s.ioReliable = true → expectedLength h ≤ s.src.length →
    ∃ t, exec (decodeInstr v fi) s = .next t ∧ t.err = 0 ∧ t.dstValid = true ∧ t.dstV = v

/-- spec/70_reset_and_hazards.md R220: a decode makes at most `height` reads. Where the environment is not
reliable each read uses up one of its answers, so at most `height` answers are used. (The list of answers
is the model's: log entry 2.) -/
def Obligations.DecodeMakesAtMostHeightReads : Prop :=
  ∀ (s t : State) (h : Header) (v : Variant) (fi : Word32), s.HoldsHeader h →
    exec (decodeInstr v fi) s = .next t →
    ∃ k, k ≤ h.height.toNat ∧ t.ioAnswers = s.ioAnswers.drop k

/-! ## Reading -/

/-- spec/20_memory.md R53 to R57: `MemRead` returns bytes only if they all exist; a read of no byte always
succeeds; a served read of 1 byte or more returns the `n` bytes from `addr` on or ends in `ShortRead`, all
or nothing; a failed one ends in `IOFailure`, whatever `addr` and `SRC_LEN` are; a read that returns bytes
leaves the cursor behind them. (That the environment's answer decides between two possible errors is the
model's form: log entries 2 and 11.) -/
def Obligations.SourceReadOutcomes : Prop :=
  ∀ (addr : Word64) (n : Nat) (s : State),
    (n = 0 → srcRead addr n s = .ok [] s) ∧
    (1 ≤ n → EnvServes s → addr.toNat + n ≤ s.src.length →
      ∃ bytes, srcRead addr n s = .ok bytes s.afterAnswer ∧ bytes.length = n ∧
        ∀ k, k < n → bytes[k]? = s.src[addr.toNat + k]?) ∧
    (1 ≤ n → EnvServes s → s.src.length < addr.toNat + n →
      srcRead addr n s = .raised .shortRead s.afterAnswer) ∧
    (1 ≤ n → EnvFails s → srcRead addr n s = .raised .ioFailure s.afterAnswer) ∧
    (∀ bytes t, seekRead addr n s = .ok bytes t →
      t.cur = addr + BitVec.ofNat 64 n ∧ (n = 0 ∨ addr.toNat + n ≤ s.src.length) ∧
        t.src = s.src ∧ t.dst = s.dst)

/-- spec/10_state.md R25: `STATUS` is `phase + 2*dst_valid + 4*dst_v`, and bits 31:3 read as zero. -/
def Obligations.StatusRegisterLayout : Prop :=
  ∀ s : State,
    (statusWord s).toNat =
      (match s.phase with | .unparsed => 0 | .parsed => 1) +
        2 * (if s.dstValid = true then 1 else 0) +
        4 * (match s.dstV with | .variant8 => 0 | .variant16 => 1) ∧
    statusWord s >>> 3 = 0

/-- spec/10_state.md R24: in phase `PARSED` the view `ROWBYTES` reads `width + floor(width / 4)`, at most
81918 under the invariant; in phase `UNPARSED` it holds no value. -/
def Obligations.RowBytesView : Prop :=
  ∀ s : State,
    (s.phase = .unparsed → readRegister 9 s = .error .holdsNoValue) ∧
    (∀ h, s.Inv → s.HoldsHeader h →
      ∃ w : Word32, readRegister 9 s = .ok (.word32 w) ∧
        w.toNat = h.width.toNat + h.width.toNat / 4 ∧ w.toNat ≤ 81918)

/-- spec/10_state.md R30, R35: the read port by register numbers, and its refusals. (That the header
registers hold a value exactly in phase `PARSED`, and `RES` exactly when it is marked as written: log
entry 6.) -/
def Obligations.ReadPortByNumber : Prop :=
  ∀ s : State,
    readRegister 0 s = .ok (.word32 (statusWord s)) ∧ readRegister 1 s = .ok (.word32 s.err) ∧
    readRegister 2 s = .ok (.word32 s.eInfo0) ∧ readRegister 3 s = .ok (.word32 s.eInfo1) ∧
    readRegister 4 s = .ok (.word32 s.eInfo2) ∧ readRegister 11 s = .ok (.word64 s.cur) ∧
    (∀ n, 12 ≤ n → readRegister n s = .error .noSuchRegister) ∧
    (s.res.written = false → readRegister 10 s = .error .holdsNoValue) ∧
    (s.res.written = true → readRegister 10 s = .ok (.word64 s.res.value)) ∧
    (s.phase = .unparsed → ∀ n, 5 ≤ n → n ≤ 9 →
      readRegister n s = .error .holdsNoValue) ∧
    (∀ h, s.HoldsHeader h →
      readRegister 5 s = .ok (.word32 h.magic) ∧ readRegister 6 s = .ok (.word32 h.frameCount) ∧
      readRegister 7 s = .ok (.word32 h.height) ∧ readRegister 8 s = .ok (.word32 h.width))

/-! ## The whole machine -/

/-- spec/10_state.md R37: the invariant holds after reset. (The empty stream and the empty `ROWBUF` are
the model's choice: log entries 4 and 7.) -/
def Obligations.InvariantHoldsAtReset : Prop := State.reset.Inv

/-- Every step keeps the invariant (R25, R26, R32, R34, R39, R181): the canonical form of `DST`, the bound
of `SRC_LEN`, the completion codes, the header registers as the legal first 16 bytes of `SRC`, and a valid
plane without unspecified bytes. (The forms of `DST` and `ROWBUF` are the model's: log entries 4 and 5.)
-/
def Obligations.StepKeepsInvariant : Prop :=
  ∀ s t : State, s.Inv → step s = .next t → t.Inv

/-- spec/70_reset_and_hazards.md R220: every command completes. In a state of the invariant no step
faults, and the one refusal is that of a reset to a stream that R9 excludes. (The fault and the refusal
are the model's: log entries 9 and 10.) -/
def Obligations.EveryStepCompletes : Prop :=
  ∀ s : State, s.Inv →
    Completes (step s) ∨
      (step s = .refused .streamTooLong ∧
        ∃ src rel rest, s.host = .reset src rel :: rest ∧ 2 ^ 63 ≤ src.length)

/-- spec/10_state.md R22, R39, spec/70_reset_and_hazards.md R210: nothing but reset returns the phase to
`UNPARSED` or changes a header register that holds a value. -/
def Obligations.OnlyResetLeavesParsed : Prop :=
  ∀ (s t : State) (h : Header), s.HoldsHeader h → step s = .next t → ¬ t.HoldsHeader h →
    ∃ src rel rest, s.host = .reset src rel :: rest

/-- spec/10_state.md R22, R23: the only step from `UNPARSED` to `PARSED` is a `PARSE` that completes
normally, and its word is `0x100000000000`. -/
def Obligations.OnlyParseEntersParsed : Prop :=
  ∀ s t : State, s.phase = .unparsed → step s = .next t → t.phase = .parsed →
    t.err = 0 ∧ ∃ rest, s.host = .command 0x100000000000 :: rest

/-- spec/10_state.md R31, R36, R211: `SRC` and `IO_RELIABLE` change only at a reset. -/
def Obligations.OnlyResetBindsSource : Prop :=
  ∀ s t : State, step s = .next t →
    (t.src = s.src ∧ t.ioReliable = s.ioReliable) ∨
      ∃ rest, s.host = .reset t.src t.ioReliable :: rest

/-- spec/10_state.md R29, R30, R32, R38: which command writes what. A command that changes the phase
or a header register is a normal `PARSE`; one that changes `CUR` is `PARSE` or a decode; one that changes
`RES` completes normally, leaves it holding a value, and is `SNIFF`, `OFFSET` or a group command; one that
changes a flag of the plane or a byte of `DST` is a decode. -/
def Obligations.WritersOfEachRegister : Prop :=
  ∀ (i : Instr) (s t : State), exec i s = .next t →
    (t.phase ≠ s.phase ∨ t.header ≠ s.header → i = .parse ∧ t.err = 0) ∧
    (t.cur ≠ s.cur → i = .parse ∨ ∃ v fi, i = decodeInstr v fi) ∧
    (t.res ≠ s.res → t.err = 0 ∧ t.res.written = true ∧ (i = .sniff ∨ (∃ fi, i = .offset fi) ∨
      (∃ b0 b1 b2 b3 b4, i = .unpk8 b0 b1 b2 b3 b4) ∨
      (∃ b0 b1 b2 b3 b4, i = .unpk16 b0 b1 b2 b3 b4))) ∧
    (t.dstValid ≠ s.dstValid ∨ t.dstV ≠ s.dstV ∨ (∃ a, Memory.read t.dst a ≠ Memory.read s.dst a) →
      ∃ v fi, i = decodeInstr v fi)

/-- spec/60_exceptions.md R184, R186: an error completion is precise. `RES`, the phase and the header
registers are as before; for every error but a failed read in a decode, so are `DST` and its flags; and
`CUR` is 16 after a format error of `PARSE`, as before after the errors that no read precedes. -/
def Obligations.ErrorsArePrecise : Prop :=
  ∀ (i : Instr) (s t : State), exec i s = .next t → t.err ≠ 0 →
    t.res = s.res ∧ t.phase = s.phase ∧ t.header = s.header ∧
    ((t.err = 4 ∨ t.err = 5) ∧ (∃ v fi, i = decodeInstr v fi) ∨
      (t.dstValid = s.dstValid ∧ t.dstV = s.dstV ∧
        ∀ a, Memory.read t.dst a = Memory.read s.dst a)) ∧
    (t.err = 1 ∨ t.err = 2 → t.cur = 16) ∧
    (t.err = 3 ∨ t.err = 6 ∨ t.err = 7 → t.cur = s.cur)

/-- spec/60_exceptions.md R181: the completion codes that each command can produce. -/
def Obligations.CompletionCodesPerCommand : Prop :=
  ∀ (i : Instr) (s t : State), exec i s = .next t →
    (i = .parse → t.err ∈ ([0, 1, 2, 4, 5, 7] : List Word32)) ∧
    (i = .sniff → t.err ∈ ([0, 4, 5] : List Word32)) ∧
    (∀ fi, i = .offset fi → t.err ∈ ([0, 3, 7] : List Word32)) ∧
    (∀ v fi, i = decodeInstr v fi → t.err ∈ ([0, 3, 4, 5, 6, 7] : List Word32)) ∧
    (∀ b0 b1 b2 b3 b4, i = .unpk8 b0 b1 b2 b3 b4 ∨ i = .unpk16 b0 b1 b2 b3 b4 → t.err = 0)
end

