-- ==== Sys2Proof/Laws/Group.lean ====
section
/-!
SUPPORT. The lengths of unpacked groups and rows.
-/

namespace Sys2Proof.Machine

/-- A group unpacks to four samples (R140). -/
@[simp] theorem length_unpackGroup (v : Variant) (b0 b1 b2 b3 b4 : Byte) :
    (unpackGroup v b0 b1 b2 b3 b4).length = 4 * v.bps := by
  cases v <;> rfl

@[simp] theorem unpackRow_nil (v : Variant) : unpackRow v [] = [] := rfl

@[simp] theorem unpackRow_group (v : Variant) (b0 b1 b2 b3 b4 : Byte) (rest : List Byte) :
    unpackRow v (b0 :: b1 :: b2 :: b3 :: b4 :: rest) =
      unpackGroup v b0 b1 b2 b3 b4 ++ unpackRow v rest := rfl

/-- A row of `n` whole groups can be read as its first group and a row of `n - 1` groups. -/
theorem exists_group_of_length {row : List Byte} {n : Nat} (h : row.length = 5 * (n + 1)) :
    ∃ b0 b1 b2 b3 b4 rest,
      row = b0 :: b1 :: b2 :: b3 :: b4 :: rest ∧ rest.length = 5 * n := by
  match row, h with
  | b0 :: b1 :: b2 :: b3 :: b4 :: rest, h =>
    exact ⟨b0, b1, b2, b3, b4, rest, rfl, by simp only [List.length_cons] at h; omega⟩
  | [], h => simp at h
  | [_], h => simp only [List.length_cons, List.length_nil] at h; omega
  | [_, _], h => simp only [List.length_cons, List.length_nil] at h; omega
  | [_, _, _], h => simp only [List.length_cons, List.length_nil] at h; omega
  | [_, _, _, _], h => simp only [List.length_cons, List.length_nil] at h; omega

/-- A row of `n` whole groups unpacks to `4n` samples (R147). -/
theorem length_unpackRow (v : Variant) : ∀ (n : Nat) (row : List Byte), row.length = 5 * n →
    (unpackRow v row).length = 4 * n * v.bps := by
  intro n
  induction n with
  | zero =>
    intro row h
    rw [List.length_eq_zero_iff.1 (by omega : row.length = 0)]
    simp
  | succ n ih =>
    intro row h
    obtain ⟨b0, b1, b2, b3, b4, rest, rfl, hr⟩ := exists_group_of_length h
    rw [unpackRow_group, List.length_append, length_unpackGroup, ih rest hr]
    ring

/-- For a width that is a multiple of 4 a row's packed bytes are whole groups (R131). -/
theorem rowBytes_of_mod {width : Nat} (h : width % 4 = 0) : rowBytes width = 5 * (width / 4) := by
  unfold rowBytes
  omega

/-- A row of `rowBytes width` packed bytes unpacks to `width` samples (R147). -/
theorem length_unpackRow_of_width (v : Variant) {width : Nat} {row : List Byte}
    (hw : width % 4 = 0) (hr : row.length = rowBytes width) :
    (unpackRow v row).length = width * v.bps := by
  rw [length_unpackRow v (width / 4) row (by rw [hr, rowBytes_of_mod hw])]
  congr 1
  omega

end Sys2Proof.Machine
end

