-- ==== Sys2Proof/Laws/Memory.lean ====
section
/-!
SUPPORT. The laws of `DST`: what a byte reads as after a write, a store of several bytes, and a range made
unspecified; and that each of them keeps the canonical form.
-/

namespace Sys2Proof.Machine

@[simp] theorem Memory.read_nil (a : Nat) : Memory.read [] a = none := rfl

theorem Memory.read_cons (c : Host.Cell) (m : Memory) (a : Nat) :
    Memory.read (c :: m) a = if c.1 = a then some c.2 else Memory.read m a := rfl

@[simp] theorem Memory.store_nil (m : Memory) (a : Nat) : Memory.store m a [] = m := by
  cases m <;> rfl

@[simp] theorem Memory.store_cons (m : Memory) (a : Nat) (b : Byte) (bs : List Byte) :
    Memory.store m a (b :: bs) = Memory.store (Memory.write m a b) (a + 1) bs := by
  cases m <;> rfl

/-- A byte written is read back; every other byte is as before (R58). -/
theorem Memory.read_write (m : Memory) (a x : Nat) (b : Byte) :
    Memory.read (Memory.write m a b) x = if x = a then some b else Memory.read m x := by
  induction m with
  | nil =>
    rw [show Memory.write [] a b = [(a, b)] from rfl, Memory.read_cons]
    exact if_congr eq_comm rfl rfl
  | cons c m ih =>
    rw [Memory.read_cons]
    unfold Memory.write
    split_ifs with h₁ h₂ h₃ h₄ h₅ h₆ h₇ <;> rw [Memory.read_cons] <;>
      (try rw [Memory.read_cons]) <;> (try rw [ih]) <;>
      split_ifs <;> first | rfl | (exfalso; omega)

/-- Bytes stored from `a` on read back in order; every other byte is as before (R58). -/
theorem Memory.read_store (bs : List Byte) : ∀ (m : Memory) (a x : Nat),
    Memory.read (Memory.store m a bs) x =
      if a ≤ x ∧ x < a + bs.length then bs[x - a]? else Memory.read m x := by
  induction bs with
  | nil =>
    intro m a x
    have : ¬ (a ≤ x ∧ x < a) := by omega
    simp [this]
  | cons b bs ih =>
    intro m a x
    rw [Memory.store_cons, ih, Memory.read_write]
    by_cases hx : x = a
    · subst hx
      simp
    · by_cases hin : a + 1 ≤ x ∧ x < a + 1 + bs.length
      · have h₁ : a ≤ x ∧ x < a + (b :: bs).length := by
          simp only [List.length_cons]; omega
        have h₂ : x - a = (x - (a + 1)) + 1 := by omega
        rw [if_pos hin, if_pos h₁, h₂, List.getElem?_cons_succ]
      · have h₁ : ¬ (a ≤ x ∧ x < a + (b :: bs).length) := by
          simp only [List.length_cons]; omega
        rw [if_neg hin, if_neg h₁, if_neg hx]

/-- Storing two runs of bytes one behind the other is storing them as one run. -/
theorem Memory.store_append (bs cs : List Byte) : ∀ (m : Memory) (a : Nat),
    Memory.store m a (bs ++ cs) = Memory.store (Memory.store m a bs) (a + bs.length) cs := by
  induction bs with
  | nil => simp
  | cons b bs ih =>
    intro m a
    simp only [List.cons_append, Memory.store_cons, ih, List.length_cons]
    congr 1
    omega

/-- Below `n` nothing is known any more; from `n` on every byte is as before (R167). -/
theorem Memory.read_forgetBelow (m : Memory) (n x : Nat) :
    Memory.read (Memory.forgetBelow m n) x = if x < n then none else Memory.read m x := by
  induction m with
  | nil => simp [Memory.forgetBelow]
  | cons c m ih =>
    unfold Memory.forgetBelow at ih ⊢
    by_cases hc : n ≤ c.1
    · rw [List.filter_cons_of_pos (by simpa using hc), Memory.read_cons, Memory.read_cons, ih]
      split_ifs <;> first | rfl | omega
    · rw [List.filter_cons_of_neg (by simpa using hc), ih, Memory.read_cons]
      split_ifs <;> first | rfl | omega

/-! ## The canonical form -/

/-- The cells after a write are the cell written and cells from before. -/
theorem Memory.mem_write (m : Memory) (a : Nat) (b : Byte) (c : Host.Cell) :
    c ∈ Memory.write m a b → c = (a, b) ∨ c ∈ m := by
  induction m with
  | nil => simp [Memory.write]
  | cons d m ih =>
    unfold Memory.write
    split_ifs with h₁ h₂
    · simp
    · intro h
      rcases List.mem_cons.1 h with h | h
      · exact .inl h
      · exact .inr (List.mem_cons_of_mem _ h)
    · intro h
      rcases List.mem_cons.1 h with h | h
      · exact .inr (h ▸ List.mem_cons_self)
      · rcases ih h with h | h
        · exact .inl h
        · exact .inr (List.mem_cons_of_mem _ h)

/-- A write to an address of `DST` keeps the canonical form. -/
theorem Memory.wf_write (m : Memory) (a : Nat) (b : Byte) (hm : Memory.wf m) (ha : a < dstSize) :
    Memory.wf (Memory.write m a b) := by
  obtain ⟨hs, hb⟩ := hm
  refine ⟨?_, fun c hc => ?_⟩
  · induction m with
    | nil => simp [Memory.write]
    | cons d m ih =>
      rw [List.pairwise_cons] at hs
      unfold Memory.write
      split_ifs with h₁ h₂
      · refine List.pairwise_cons.2 ⟨fun e he => ?_, List.pairwise_cons.2 hs⟩
        rcases List.mem_cons.1 he with rfl | he
        · exact h₁
        · exact lt_trans h₁ (hs.1 e he)
      · exact List.pairwise_cons.2 ⟨fun e he => h₂ ▸ hs.1 e he, hs.2⟩
      · refine List.pairwise_cons.2
          ⟨fun e he => ?_, ih hs.2 fun c hc => hb c (List.mem_cons_of_mem _ hc)⟩
        rcases Memory.mem_write m a b e he with rfl | he
        · show d.1 < a
          omega
        · exact hs.1 e he
  · rcases Memory.mem_write m a b c hc with rfl | h
    · exact ha
    · exact hb c h

/-- A store inside `DST` keeps the canonical form. -/
theorem Memory.wf_store (bs : List Byte) : ∀ (m : Memory) (a : Nat), Memory.wf m →
    a + bs.length ≤ dstSize → Memory.wf (Memory.store m a bs) := by
  induction bs with
  | nil => intro m a hm _; simpa using hm
  | cons b bs ih =>
    intro m a hm ha
    rw [List.length_cons] at ha
    rw [Memory.store_cons]
    exact ih _ _ (Memory.wf_write m a b hm (by omega)) (by omega)

/-- Making a range unspecified keeps the canonical form. -/
theorem Memory.wf_forgetBelow (m : Memory) (n : Nat) (hm : Memory.wf m) :
    Memory.wf (Memory.forgetBelow m n) :=
  ⟨hm.1.filter _, fun c hc => hm.2 c (List.mem_of_mem_filter hc)⟩

end Sys2Proof.Machine
end

