-- ==== Sys2Proof/Laws/State.lean ====
section
/-!
SUPPORT. What each update of the state does to each field: it writes its own fields and keeps the
others. With these a proof never unfolds an update.
-/

namespace Sys2Proof.Machine

variable (s : State)

/-! ### `State.withCompletion` -/

@[simp] theorem State.withCompletion_phase (c i j k : Word32) : (s.withCompletion c i j k).phase = s.phase := rfl
@[simp] theorem State.withCompletion_header (c i j k : Word32) : (s.withCompletion c i j k).header = s.header := rfl
@[simp] theorem State.withCompletion_dstValid (c i j k : Word32) : (s.withCompletion c i j k).dstValid = s.dstValid := rfl
@[simp] theorem State.withCompletion_dstV (c i j k : Word32) : (s.withCompletion c i j k).dstV = s.dstV := rfl
@[simp] theorem State.withCompletion_err (c i j k : Word32) : (s.withCompletion c i j k).err = c := rfl
@[simp] theorem State.withCompletion_eInfo0 (c i j k : Word32) : (s.withCompletion c i j k).eInfo0 = i := rfl
@[simp] theorem State.withCompletion_eInfo1 (c i j k : Word32) : (s.withCompletion c i j k).eInfo1 = j := rfl
@[simp] theorem State.withCompletion_eInfo2 (c i j k : Word32) : (s.withCompletion c i j k).eInfo2 = k := rfl
@[simp] theorem State.withCompletion_res (c i j k : Word32) : (s.withCompletion c i j k).res = s.res := rfl
@[simp] theorem State.withCompletion_cur (c i j k : Word32) : (s.withCompletion c i j k).cur = s.cur := rfl
@[simp] theorem State.withCompletion_dst (c i j k : Word32) : (s.withCompletion c i j k).dst = s.dst := rfl
@[simp] theorem State.withCompletion_rowBuf (c i j k : Word32) : (s.withCompletion c i j k).rowBuf = s.rowBuf := rfl
@[simp] theorem State.withCompletion_src (c i j k : Word32) : (s.withCompletion c i j k).src = s.src := rfl
@[simp] theorem State.withCompletion_ioReliable (c i j k : Word32) : (s.withCompletion c i j k).ioReliable = s.ioReliable := rfl
@[simp] theorem State.withCompletion_ioAnswers (c i j k : Word32) : (s.withCompletion c i j k).ioAnswers = s.ioAnswers := rfl
@[simp] theorem State.withCompletion_host (c i j k : Word32) : (s.withCompletion c i j k).host = s.host := rfl
@[simp] theorem State.withCompletion_draws (c i j k : Word32) : (s.withCompletion c i j k).draws = s.draws := rfl
@[simp] theorem State.withCompletion_dstSpoils (c i j k : Word32) : (s.withCompletion c i j k).dstSpoils = s.dstSpoils := rfl

/-! ### `State.withResult` -/

@[simp] theorem State.withResult_phase (r : Word64) : (s.withResult r).phase = s.phase := rfl
@[simp] theorem State.withResult_header (r : Word64) : (s.withResult r).header = s.header := rfl
@[simp] theorem State.withResult_dstValid (r : Word64) : (s.withResult r).dstValid = s.dstValid := rfl
@[simp] theorem State.withResult_dstV (r : Word64) : (s.withResult r).dstV = s.dstV := rfl
@[simp] theorem State.withResult_err (r : Word64) : (s.withResult r).err = s.err := rfl
@[simp] theorem State.withResult_eInfo0 (r : Word64) : (s.withResult r).eInfo0 = s.eInfo0 := rfl
@[simp] theorem State.withResult_eInfo1 (r : Word64) : (s.withResult r).eInfo1 = s.eInfo1 := rfl
@[simp] theorem State.withResult_eInfo2 (r : Word64) : (s.withResult r).eInfo2 = s.eInfo2 := rfl
@[simp] theorem State.withResult_res (r : Word64) : (s.withResult r).res = ⟨r, true⟩ := rfl
@[simp] theorem State.withResult_cur (r : Word64) : (s.withResult r).cur = s.cur := rfl
@[simp] theorem State.withResult_dst (r : Word64) : (s.withResult r).dst = s.dst := rfl
@[simp] theorem State.withResult_rowBuf (r : Word64) : (s.withResult r).rowBuf = s.rowBuf := rfl
@[simp] theorem State.withResult_src (r : Word64) : (s.withResult r).src = s.src := rfl
@[simp] theorem State.withResult_ioReliable (r : Word64) : (s.withResult r).ioReliable = s.ioReliable := rfl
@[simp] theorem State.withResult_ioAnswers (r : Word64) : (s.withResult r).ioAnswers = s.ioAnswers := rfl
@[simp] theorem State.withResult_host (r : Word64) : (s.withResult r).host = s.host := rfl
@[simp] theorem State.withResult_draws (r : Word64) : (s.withResult r).draws = s.draws := rfl
@[simp] theorem State.withResult_dstSpoils (r : Word64) : (s.withResult r).dstSpoils = s.dstSpoils := rfl

/-! ### `State.withCursor` -/

@[simp] theorem State.withCursor_phase (c : Word64) : (s.withCursor c).phase = s.phase := rfl
@[simp] theorem State.withCursor_header (c : Word64) : (s.withCursor c).header = s.header := rfl
@[simp] theorem State.withCursor_dstValid (c : Word64) : (s.withCursor c).dstValid = s.dstValid := rfl
@[simp] theorem State.withCursor_dstV (c : Word64) : (s.withCursor c).dstV = s.dstV := rfl
@[simp] theorem State.withCursor_err (c : Word64) : (s.withCursor c).err = s.err := rfl
@[simp] theorem State.withCursor_eInfo0 (c : Word64) : (s.withCursor c).eInfo0 = s.eInfo0 := rfl
@[simp] theorem State.withCursor_eInfo1 (c : Word64) : (s.withCursor c).eInfo1 = s.eInfo1 := rfl
@[simp] theorem State.withCursor_eInfo2 (c : Word64) : (s.withCursor c).eInfo2 = s.eInfo2 := rfl
@[simp] theorem State.withCursor_res (c : Word64) : (s.withCursor c).res = s.res := rfl
@[simp] theorem State.withCursor_cur (c : Word64) : (s.withCursor c).cur = c := rfl
@[simp] theorem State.withCursor_dst (c : Word64) : (s.withCursor c).dst = s.dst := rfl
@[simp] theorem State.withCursor_rowBuf (c : Word64) : (s.withCursor c).rowBuf = s.rowBuf := rfl
@[simp] theorem State.withCursor_src (c : Word64) : (s.withCursor c).src = s.src := rfl
@[simp] theorem State.withCursor_ioReliable (c : Word64) : (s.withCursor c).ioReliable = s.ioReliable := rfl
@[simp] theorem State.withCursor_ioAnswers (c : Word64) : (s.withCursor c).ioAnswers = s.ioAnswers := rfl
@[simp] theorem State.withCursor_host (c : Word64) : (s.withCursor c).host = s.host := rfl
@[simp] theorem State.withCursor_draws (c : Word64) : (s.withCursor c).draws = s.draws := rfl
@[simp] theorem State.withCursor_dstSpoils (c : Word64) : (s.withCursor c).dstSpoils = s.dstSpoils := rfl

/-! ### `State.withDst` -/

@[simp] theorem State.withDst_phase (m : Memory) : (s.withDst m).phase = s.phase := rfl
@[simp] theorem State.withDst_header (m : Memory) : (s.withDst m).header = s.header := rfl
@[simp] theorem State.withDst_dstValid (m : Memory) : (s.withDst m).dstValid = s.dstValid := rfl
@[simp] theorem State.withDst_dstV (m : Memory) : (s.withDst m).dstV = s.dstV := rfl
@[simp] theorem State.withDst_err (m : Memory) : (s.withDst m).err = s.err := rfl
@[simp] theorem State.withDst_eInfo0 (m : Memory) : (s.withDst m).eInfo0 = s.eInfo0 := rfl
@[simp] theorem State.withDst_eInfo1 (m : Memory) : (s.withDst m).eInfo1 = s.eInfo1 := rfl
@[simp] theorem State.withDst_eInfo2 (m : Memory) : (s.withDst m).eInfo2 = s.eInfo2 := rfl
@[simp] theorem State.withDst_res (m : Memory) : (s.withDst m).res = s.res := rfl
@[simp] theorem State.withDst_cur (m : Memory) : (s.withDst m).cur = s.cur := rfl
@[simp] theorem State.withDst_dst (m : Memory) : (s.withDst m).dst = m := rfl
@[simp] theorem State.withDst_rowBuf (m : Memory) : (s.withDst m).rowBuf = s.rowBuf := rfl
@[simp] theorem State.withDst_src (m : Memory) : (s.withDst m).src = s.src := rfl
@[simp] theorem State.withDst_ioReliable (m : Memory) : (s.withDst m).ioReliable = s.ioReliable := rfl
@[simp] theorem State.withDst_ioAnswers (m : Memory) : (s.withDst m).ioAnswers = s.ioAnswers := rfl
@[simp] theorem State.withDst_host (m : Memory) : (s.withDst m).host = s.host := rfl
@[simp] theorem State.withDst_draws (m : Memory) : (s.withDst m).draws = s.draws := rfl
@[simp] theorem State.withDst_dstSpoils (m : Memory) : (s.withDst m).dstSpoils = s.dstSpoils := rfl

/-! ### `State.withRowBuf` -/

@[simp] theorem State.withRowBuf_phase (row : List Byte) : (s.withRowBuf row).phase = s.phase := rfl
@[simp] theorem State.withRowBuf_header (row : List Byte) : (s.withRowBuf row).header = s.header := rfl
@[simp] theorem State.withRowBuf_dstValid (row : List Byte) : (s.withRowBuf row).dstValid = s.dstValid := rfl
@[simp] theorem State.withRowBuf_dstV (row : List Byte) : (s.withRowBuf row).dstV = s.dstV := rfl
@[simp] theorem State.withRowBuf_err (row : List Byte) : (s.withRowBuf row).err = s.err := rfl
@[simp] theorem State.withRowBuf_eInfo0 (row : List Byte) : (s.withRowBuf row).eInfo0 = s.eInfo0 := rfl
@[simp] theorem State.withRowBuf_eInfo1 (row : List Byte) : (s.withRowBuf row).eInfo1 = s.eInfo1 := rfl
@[simp] theorem State.withRowBuf_eInfo2 (row : List Byte) : (s.withRowBuf row).eInfo2 = s.eInfo2 := rfl
@[simp] theorem State.withRowBuf_res (row : List Byte) : (s.withRowBuf row).res = s.res := rfl
@[simp] theorem State.withRowBuf_cur (row : List Byte) : (s.withRowBuf row).cur = s.cur := rfl
@[simp] theorem State.withRowBuf_dst (row : List Byte) : (s.withRowBuf row).dst = s.dst := rfl
@[simp] theorem State.withRowBuf_rowBuf (row : List Byte) : (s.withRowBuf row).rowBuf = row := rfl
@[simp] theorem State.withRowBuf_src (row : List Byte) : (s.withRowBuf row).src = s.src := rfl
@[simp] theorem State.withRowBuf_ioReliable (row : List Byte) : (s.withRowBuf row).ioReliable = s.ioReliable := rfl
@[simp] theorem State.withRowBuf_ioAnswers (row : List Byte) : (s.withRowBuf row).ioAnswers = s.ioAnswers := rfl
@[simp] theorem State.withRowBuf_host (row : List Byte) : (s.withRowBuf row).host = s.host := rfl
@[simp] theorem State.withRowBuf_draws (row : List Byte) : (s.withRowBuf row).draws = s.draws := rfl
@[simp] theorem State.withRowBuf_dstSpoils (row : List Byte) : (s.withRowBuf row).dstSpoils = s.dstSpoils := rfl

/-! ### `State.withHost` -/

@[simp] theorem State.withHost_phase (es : List HostEvent) : (s.withHost es).phase = s.phase := rfl
@[simp] theorem State.withHost_header (es : List HostEvent) : (s.withHost es).header = s.header := rfl
@[simp] theorem State.withHost_dstValid (es : List HostEvent) : (s.withHost es).dstValid = s.dstValid := rfl
@[simp] theorem State.withHost_dstV (es : List HostEvent) : (s.withHost es).dstV = s.dstV := rfl
@[simp] theorem State.withHost_err (es : List HostEvent) : (s.withHost es).err = s.err := rfl
@[simp] theorem State.withHost_eInfo0 (es : List HostEvent) : (s.withHost es).eInfo0 = s.eInfo0 := rfl
@[simp] theorem State.withHost_eInfo1 (es : List HostEvent) : (s.withHost es).eInfo1 = s.eInfo1 := rfl
@[simp] theorem State.withHost_eInfo2 (es : List HostEvent) : (s.withHost es).eInfo2 = s.eInfo2 := rfl
@[simp] theorem State.withHost_res (es : List HostEvent) : (s.withHost es).res = s.res := rfl
@[simp] theorem State.withHost_cur (es : List HostEvent) : (s.withHost es).cur = s.cur := rfl
@[simp] theorem State.withHost_dst (es : List HostEvent) : (s.withHost es).dst = s.dst := rfl
@[simp] theorem State.withHost_rowBuf (es : List HostEvent) : (s.withHost es).rowBuf = s.rowBuf := rfl
@[simp] theorem State.withHost_src (es : List HostEvent) : (s.withHost es).src = s.src := rfl
@[simp] theorem State.withHost_ioReliable (es : List HostEvent) : (s.withHost es).ioReliable = s.ioReliable := rfl
@[simp] theorem State.withHost_ioAnswers (es : List HostEvent) : (s.withHost es).ioAnswers = s.ioAnswers := rfl
@[simp] theorem State.withHost_host (es : List HostEvent) : (s.withHost es).host = es := rfl
@[simp] theorem State.withHost_draws (es : List HostEvent) : (s.withHost es).draws = s.draws := rfl
@[simp] theorem State.withHost_dstSpoils (es : List HostEvent) : (s.withHost es).dstSpoils = s.dstSpoils := rfl

/-! ### `State.countDraw` -/

@[simp] theorem State.countDraw_phase : s.countDraw.phase = s.phase := rfl
@[simp] theorem State.countDraw_header : s.countDraw.header = s.header := rfl
@[simp] theorem State.countDraw_dstValid : s.countDraw.dstValid = s.dstValid := rfl
@[simp] theorem State.countDraw_dstV : s.countDraw.dstV = s.dstV := rfl
@[simp] theorem State.countDraw_err : s.countDraw.err = s.err := rfl
@[simp] theorem State.countDraw_eInfo0 : s.countDraw.eInfo0 = s.eInfo0 := rfl
@[simp] theorem State.countDraw_eInfo1 : s.countDraw.eInfo1 = s.eInfo1 := rfl
@[simp] theorem State.countDraw_eInfo2 : s.countDraw.eInfo2 = s.eInfo2 := rfl
@[simp] theorem State.countDraw_res : s.countDraw.res = s.res := rfl
@[simp] theorem State.countDraw_cur : s.countDraw.cur = s.cur := rfl
@[simp] theorem State.countDraw_dst : s.countDraw.dst = s.dst := rfl
@[simp] theorem State.countDraw_rowBuf : s.countDraw.rowBuf = s.rowBuf := rfl
@[simp] theorem State.countDraw_src : s.countDraw.src = s.src := rfl
@[simp] theorem State.countDraw_ioReliable : s.countDraw.ioReliable = s.ioReliable := rfl
@[simp] theorem State.countDraw_ioAnswers : s.countDraw.ioAnswers = s.ioAnswers := rfl
@[simp] theorem State.countDraw_host : s.countDraw.host = s.host := rfl
@[simp] theorem State.countDraw_draws : s.countDraw.draws = s.draws + 1 := rfl
@[simp] theorem State.countDraw_dstSpoils : s.countDraw.dstSpoils = s.dstSpoils := rfl

/-! ### `State.useAnswer` -/

@[simp] theorem State.useAnswer_phase : s.useAnswer.phase = s.phase := rfl
@[simp] theorem State.useAnswer_header : s.useAnswer.header = s.header := rfl
@[simp] theorem State.useAnswer_dstValid : s.useAnswer.dstValid = s.dstValid := rfl
@[simp] theorem State.useAnswer_dstV : s.useAnswer.dstV = s.dstV := rfl
@[simp] theorem State.useAnswer_err : s.useAnswer.err = s.err := rfl
@[simp] theorem State.useAnswer_eInfo0 : s.useAnswer.eInfo0 = s.eInfo0 := rfl
@[simp] theorem State.useAnswer_eInfo1 : s.useAnswer.eInfo1 = s.eInfo1 := rfl
@[simp] theorem State.useAnswer_eInfo2 : s.useAnswer.eInfo2 = s.eInfo2 := rfl
@[simp] theorem State.useAnswer_res : s.useAnswer.res = s.res := rfl
@[simp] theorem State.useAnswer_cur : s.useAnswer.cur = s.cur := rfl
@[simp] theorem State.useAnswer_dst : s.useAnswer.dst = s.dst := rfl
@[simp] theorem State.useAnswer_rowBuf : s.useAnswer.rowBuf = s.rowBuf := rfl
@[simp] theorem State.useAnswer_src : s.useAnswer.src = s.src := rfl
@[simp] theorem State.useAnswer_ioReliable : s.useAnswer.ioReliable = s.ioReliable := rfl
@[simp] theorem State.useAnswer_ioAnswers : s.useAnswer.ioAnswers = s.ioAnswers.tail := rfl
@[simp] theorem State.useAnswer_host : s.useAnswer.host = s.host := rfl
@[simp] theorem State.useAnswer_draws : s.useAnswer.draws = s.draws := rfl
@[simp] theorem State.useAnswer_dstSpoils : s.useAnswer.dstSpoils = s.dstSpoils := rfl

/-! ### `State.noteSpoil` -/

@[simp] theorem State.noteSpoil_phase (n : Nat) : (s.noteSpoil n).phase = s.phase := rfl
@[simp] theorem State.noteSpoil_header (n : Nat) : (s.noteSpoil n).header = s.header := rfl
@[simp] theorem State.noteSpoil_dstValid (n : Nat) : (s.noteSpoil n).dstValid = s.dstValid := rfl
@[simp] theorem State.noteSpoil_dstV (n : Nat) : (s.noteSpoil n).dstV = s.dstV := rfl
@[simp] theorem State.noteSpoil_err (n : Nat) : (s.noteSpoil n).err = s.err := rfl
@[simp] theorem State.noteSpoil_eInfo0 (n : Nat) : (s.noteSpoil n).eInfo0 = s.eInfo0 := rfl
@[simp] theorem State.noteSpoil_eInfo1 (n : Nat) : (s.noteSpoil n).eInfo1 = s.eInfo1 := rfl
@[simp] theorem State.noteSpoil_eInfo2 (n : Nat) : (s.noteSpoil n).eInfo2 = s.eInfo2 := rfl
@[simp] theorem State.noteSpoil_res (n : Nat) : (s.noteSpoil n).res = s.res := rfl
@[simp] theorem State.noteSpoil_cur (n : Nat) : (s.noteSpoil n).cur = s.cur := rfl
@[simp] theorem State.noteSpoil_dst (n : Nat) : (s.noteSpoil n).dst = s.dst := rfl
@[simp] theorem State.noteSpoil_rowBuf (n : Nat) : (s.noteSpoil n).rowBuf = s.rowBuf := rfl
@[simp] theorem State.noteSpoil_src (n : Nat) : (s.noteSpoil n).src = s.src := rfl
@[simp] theorem State.noteSpoil_ioReliable (n : Nat) : (s.noteSpoil n).ioReliable = s.ioReliable := rfl
@[simp] theorem State.noteSpoil_ioAnswers (n : Nat) : (s.noteSpoil n).ioAnswers = s.ioAnswers := rfl
@[simp] theorem State.noteSpoil_host (n : Nat) : (s.noteSpoil n).host = s.host := rfl
@[simp] theorem State.noteSpoil_draws (n : Nat) : (s.noteSpoil n).draws = s.draws := rfl
@[simp] theorem State.noteSpoil_dstSpoils (n : Nat) : (s.noteSpoil n).dstSpoils = n :: s.dstSpoils := rfl

/-! ### `State.clearPlane` -/

@[simp] theorem State.clearPlane_phase : s.clearPlane.phase = s.phase := rfl
@[simp] theorem State.clearPlane_header : s.clearPlane.header = s.header := rfl
@[simp] theorem State.clearPlane_dstValid : s.clearPlane.dstValid = false := rfl
@[simp] theorem State.clearPlane_dstV : s.clearPlane.dstV = s.dstV := rfl
@[simp] theorem State.clearPlane_err : s.clearPlane.err = s.err := rfl
@[simp] theorem State.clearPlane_eInfo0 : s.clearPlane.eInfo0 = s.eInfo0 := rfl
@[simp] theorem State.clearPlane_eInfo1 : s.clearPlane.eInfo1 = s.eInfo1 := rfl
@[simp] theorem State.clearPlane_eInfo2 : s.clearPlane.eInfo2 = s.eInfo2 := rfl
@[simp] theorem State.clearPlane_res : s.clearPlane.res = s.res := rfl
@[simp] theorem State.clearPlane_cur : s.clearPlane.cur = s.cur := rfl
@[simp] theorem State.clearPlane_dst : s.clearPlane.dst = s.dst := rfl
@[simp] theorem State.clearPlane_rowBuf : s.clearPlane.rowBuf = s.rowBuf := rfl
@[simp] theorem State.clearPlane_src : s.clearPlane.src = s.src := rfl
@[simp] theorem State.clearPlane_ioReliable : s.clearPlane.ioReliable = s.ioReliable := rfl
@[simp] theorem State.clearPlane_ioAnswers : s.clearPlane.ioAnswers = s.ioAnswers := rfl
@[simp] theorem State.clearPlane_host : s.clearPlane.host = s.host := rfl
@[simp] theorem State.clearPlane_draws : s.clearPlane.draws = s.draws := rfl
@[simp] theorem State.clearPlane_dstSpoils : s.clearPlane.dstSpoils = s.dstSpoils := rfl

/-! ### `State.publishPlane` -/

@[simp] theorem State.publishPlane_phase (v : Variant) : (s.publishPlane v).phase = s.phase := rfl
@[simp] theorem State.publishPlane_header (v : Variant) : (s.publishPlane v).header = s.header := rfl
@[simp] theorem State.publishPlane_dstValid (v : Variant) : (s.publishPlane v).dstValid = true := rfl
@[simp] theorem State.publishPlane_dstV (v : Variant) : (s.publishPlane v).dstV = v := rfl
@[simp] theorem State.publishPlane_err (v : Variant) : (s.publishPlane v).err = s.err := rfl
@[simp] theorem State.publishPlane_eInfo0 (v : Variant) : (s.publishPlane v).eInfo0 = s.eInfo0 := rfl
@[simp] theorem State.publishPlane_eInfo1 (v : Variant) : (s.publishPlane v).eInfo1 = s.eInfo1 := rfl
@[simp] theorem State.publishPlane_eInfo2 (v : Variant) : (s.publishPlane v).eInfo2 = s.eInfo2 := rfl
@[simp] theorem State.publishPlane_res (v : Variant) : (s.publishPlane v).res = s.res := rfl
@[simp] theorem State.publishPlane_cur (v : Variant) : (s.publishPlane v).cur = s.cur := rfl
@[simp] theorem State.publishPlane_dst (v : Variant) : (s.publishPlane v).dst = s.dst := rfl
@[simp] theorem State.publishPlane_rowBuf (v : Variant) : (s.publishPlane v).rowBuf = s.rowBuf := rfl
@[simp] theorem State.publishPlane_src (v : Variant) : (s.publishPlane v).src = s.src := rfl
@[simp] theorem State.publishPlane_ioReliable (v : Variant) : (s.publishPlane v).ioReliable = s.ioReliable := rfl
@[simp] theorem State.publishPlane_ioAnswers (v : Variant) : (s.publishPlane v).ioAnswers = s.ioAnswers := rfl
@[simp] theorem State.publishPlane_host (v : Variant) : (s.publishPlane v).host = s.host := rfl
@[simp] theorem State.publishPlane_draws (v : Variant) : (s.publishPlane v).draws = s.draws := rfl
@[simp] theorem State.publishPlane_dstSpoils (v : Variant) : (s.publishPlane v).dstSpoils = s.dstSpoils := rfl

/-! ### `State.latchHeader` -/

@[simp] theorem State.latchHeader_phase (h : Header) : (s.latchHeader h).phase = .parsed := rfl
@[simp] theorem State.latchHeader_header (h : Header) : (s.latchHeader h).header = h := rfl
@[simp] theorem State.latchHeader_dstValid (h : Header) : (s.latchHeader h).dstValid = s.dstValid := rfl
@[simp] theorem State.latchHeader_dstV (h : Header) : (s.latchHeader h).dstV = s.dstV := rfl
@[simp] theorem State.latchHeader_err (h : Header) : (s.latchHeader h).err = s.err := rfl
@[simp] theorem State.latchHeader_eInfo0 (h : Header) : (s.latchHeader h).eInfo0 = s.eInfo0 := rfl
@[simp] theorem State.latchHeader_eInfo1 (h : Header) : (s.latchHeader h).eInfo1 = s.eInfo1 := rfl
@[simp] theorem State.latchHeader_eInfo2 (h : Header) : (s.latchHeader h).eInfo2 = s.eInfo2 := rfl
@[simp] theorem State.latchHeader_res (h : Header) : (s.latchHeader h).res = s.res := rfl
@[simp] theorem State.latchHeader_cur (h : Header) : (s.latchHeader h).cur = s.cur := rfl
@[simp] theorem State.latchHeader_dst (h : Header) : (s.latchHeader h).dst = s.dst := rfl
@[simp] theorem State.latchHeader_rowBuf (h : Header) : (s.latchHeader h).rowBuf = s.rowBuf := rfl
@[simp] theorem State.latchHeader_src (h : Header) : (s.latchHeader h).src = s.src := rfl
@[simp] theorem State.latchHeader_ioReliable (h : Header) : (s.latchHeader h).ioReliable = s.ioReliable := rfl
@[simp] theorem State.latchHeader_ioAnswers (h : Header) : (s.latchHeader h).ioAnswers = s.ioAnswers := rfl
@[simp] theorem State.latchHeader_host (h : Header) : (s.latchHeader h).host = s.host := rfl
@[simp] theorem State.latchHeader_draws (h : Header) : (s.latchHeader h).draws = s.draws := rfl
@[simp] theorem State.latchHeader_dstSpoils (h : Header) : (s.latchHeader h).dstSpoils = s.dstSpoils := rfl

/-! ### Registers that hold no value at reset -/

variable {s} in
/-- In phase `PARSED` the header registers hold their values (R23). -/
theorem State.header?_of_parsed (hp : s.phase = .parsed) : s.header? = some s.header := by
  rw [State.header?, hp]

variable {s} in
/-- In phase `UNPARSED` the header registers hold no value (R23). -/
theorem State.header?_of_unparsed (hp : s.phase = .unparsed) : s.header? = none := by
  rw [State.header?, hp]

/-- A written `RES` holds the word of its last write (R29). -/
@[simp] theorem State.withResult_value? (r : Word64) : (s.withResult r).res.value? = some r := rfl

/-- Before its first write `RES` holds no value, whatever word is stored in it (R29). -/
@[simp] theorem ResultRegister.value?_unwritten (w : Word64) : (ResultRegister.mk w false).value? = none := rfl

/-! ### The completions -/

/-- A normal completion writes zeros to the four completion registers (R26). -/
@[simp] theorem completeOk_eq : completeOk s = s.withCompletion 0 0 0 0 := rfl

/-- An error completion writes the code and the operands of its kind (R181, R184). -/
@[simp] theorem raise_eq (e : ErrorKind) :
    raise e s = s.withCompletion e.code e.info0 e.info1 e.info2 := rfl

/-- The seek before the first row keeps everything but `dst_valid` and `CUR` (R163 line 4). -/
@[simp] theorem beginDecode_eq (base : Word64) :
    beginDecode base s = s.clearPlane.withCursor base := rfl

end Sys2Proof.Machine
end

