-- ==== Sys2Proof/Laws/Reads.lean ====
section
/-!
SUPPORT. What a read of `SRC` can do: the four ways `srcRead` and `seekRead` end, each said once.
-/

namespace Sys2Proof.Machine

/-- The environment either serves the coming read or fails it. -/
theorem envServes_or_envFails (s : State) : EnvServes s ∨ EnvFails s := by
  unfold EnvServes EnvFails
  cases s.ioReliable <;> cases s.nextAnswer <;> simp

/-- Answering a read changes the environment's records only. -/
theorem State.afterAnswer_eq (s : State) :
    s.afterAnswer = { s with ioAnswers := s.afterAnswer.ioAnswers, draws := s.afterAnswer.draws } := by
  unfold State.afterAnswer
  split <;> rfl

@[simp] theorem State.afterAnswer_src (s : State) : s.afterAnswer.src = s.src := by
  rw [s.afterAnswer_eq]

/-- A reliable environment is asked nothing. -/
theorem State.afterAnswer_of_reliable {s : State} (h : s.ioReliable = true) : s.afterAnswer = s := by
  simp [State.afterAnswer, h]

/-- Where the environment is not reliable, a read uses up one answer and counts one draw. -/
theorem State.afterAnswer_of_unreliable {s : State} (h : s.ioReliable = false) :
    s.afterAnswer = s.useAnswer.countDraw := by
  simp [State.afterAnswer, h]

/-- A read of no byte succeeds and asks nothing of the environment (R56). -/
@[simp] theorem srcRead_zero (addr : Word64) (s : State) : srcRead addr 0 s = .ok [] s := by
  simp [srcRead]

/-- A read that the environment serves is decided by the length of `SRC` (R53, R54). -/
theorem srcRead_of_serves {addr : Word64} {n : Nat} {s : State} (hn : n ≠ 0) (h : EnvServes s) :
    srcRead addr n s = fetchBytes addr n s.afterAnswer := by
  rcases hr : s.ioReliable with _ | _
  · have ha : s.nextAnswer = .serve := by
      rcases h with h | h
      · simp [hr] at h
      · exact h
    simp [srcRead, hn, hr, ha, State.afterAnswer]
  · simp [srcRead, hn, hr, State.afterAnswer]

/-- A read that the environment fails ends in `IOFailure` (R55). -/
theorem srcRead_of_fails {addr : Word64} {n : Nat} {s : State} (hn : n ≠ 0) (h : EnvFails s) :
    srcRead addr n s = .raised .ioFailure s.afterAnswer := by
  simp [srcRead, hn, h.1, h.2, State.afterAnswer]

/-- Everything a read that returns bytes can have done (R53, R56). -/
theorem srcRead_ok {addr : Word64} {n : Nat} {s t : State} {bytes : List Byte}
    (h : srcRead addr n s = .ok bytes t) :
    bytes = (s.src.drop addr.toNat).take n ∧ (n = 0 ∨ addr.toNat + n ≤ s.src.length) ∧
      ((n = 0 ∧ t = s) ∨ (n ≠ 0 ∧ EnvServes s ∧ t = s.afterAnswer)) := by
  by_cases hn : n = 0
  · subst hn
    simp only [srcRead_zero, ReadOutcome.ok.injEq] at h
    obtain ⟨rfl, rfl⟩ := h
    simp
  · rcases envServes_or_envFails s with hs | hf
    · rw [srcRead_of_serves hn hs, fetchBytes] at h
      split at h
      · next hlen =>
        simp only [State.afterAnswer_src, ReadOutcome.ok.injEq] at h hlen
        exact ⟨h.1.symm, .inr hlen, .inr ⟨hn, hs, h.2.symm⟩⟩
      · cases h
    · rw [srcRead_of_fails hn hf] at h
      cases h

/-- Everything a read that raises can have done (R54, R55). -/
theorem srcRead_raised {addr : Word64} {n : Nat} {s t : State} {e : ReadError}
    (h : srcRead addr n s = .raised e t) :
    n ≠ 0 ∧ t = s.afterAnswer ∧
      ((e = .shortRead ∧ EnvServes s ∧ s.src.length < addr.toNat + n) ∨
        (e = .ioFailure ∧ EnvFails s)) := by
  by_cases hn : n = 0
  · subst hn
    simp at h
  · rcases envServes_or_envFails s with hs | hf
    · rw [srcRead_of_serves hn hs, fetchBytes] at h
      split at h
      · cases h
      · next hlen =>
        simp only [ReadOutcome.raised.injEq] at h
        exact ⟨hn, h.2.symm, .inl ⟨h.1.symm, hs, by simpa using hlen⟩⟩
    · rw [srcRead_of_fails hn hf] at h
      simp only [ReadOutcome.raised.injEq] at h
      exact ⟨hn, h.2.symm, .inr ⟨h.1.symm, hf⟩⟩

/-- A served read of bytes that all exist returns them (R53). -/
theorem srcRead_of_bytes {addr : Word64} {n : Nat} {s : State} (hn : n ≠ 0) (h : EnvServes s)
    (hlen : addr.toNat + n ≤ s.src.length) :
    srcRead addr n s = .ok ((s.src.drop addr.toNat).take n) s.afterAnswer := by
  simp [srcRead_of_serves hn h, fetchBytes, hlen]

/-- A served read that reaches past `SRC_LEN` returns none of its bytes (R54). -/
theorem srcRead_of_short {addr : Word64} {n : Nat} {s : State} (hn : n ≠ 0) (h : EnvServes s)
    (hlen : s.src.length < addr.toNat + n) :
    srcRead addr n s = .raised .shortRead s.afterAnswer := by
  simp [srcRead_of_serves hn h, fetchBytes, Nat.not_le.2 hlen]

/-- `seekRead` returns what `srcRead` returns and leaves the cursor behind it (R57). -/
theorem seekRead_of_ok {addr : Word64} {n : Nat} {s t : State} {bytes : List Byte}
    (h : srcRead addr n s = .ok bytes t) :
    seekRead addr n s = .ok bytes (t.withCursor (addr + BitVec.ofNat 64 n)) := by
  simp [seekRead, h]

/-- `seekRead` raises what `srcRead` raises and leaves the cursor unspecified (R57). -/
theorem seekRead_of_raised {addr : Word64} {n : Nat} {s t : State} {e : ReadError}
    (h : srcRead addr n s = .raised e t) :
    seekRead addr n s = .raised e (t.withCursor (Config.curAfterFailure t.draws)).countDraw := by
  simp [seekRead, h]

/-- Everything a `seekRead` that returns bytes can have done. -/
theorem seekRead_ok {addr : Word64} {n : Nat} {s t : State} {bytes : List Byte}
    (h : seekRead addr n s = .ok bytes t) :
    ∃ u, srcRead addr n s = .ok bytes u ∧ t = u.withCursor (addr + BitVec.ofNat 64 n) := by
  unfold seekRead at h
  split at h
  · next bytes' u hu =>
    simp only [ReadOutcome.ok.injEq] at h
    exact ⟨u, h.1 ▸ hu, h.2.symm⟩
  · cases h

/-- Everything a `seekRead` that raises can have done. -/
theorem seekRead_raised {addr : Word64} {n : Nat} {s t : State} {e : ReadError}
    (h : seekRead addr n s = .raised e t) :
    ∃ u, srcRead addr n s = .raised e u ∧
      t = (u.withCursor (Config.curAfterFailure u.draws)).countDraw := by
  unfold seekRead at h
  split at h
  · cases h
  · next e' u hu =>
    simp only [ReadOutcome.raised.injEq] at h
    exact ⟨u, h.1 ▸ hu, h.2.symm⟩

/-- A read that returns bytes changes the cursor and the environment's records only. -/
theorem seekRead_ok_frame {addr : Word64} {n : Nat} {s t : State} {bytes : List Byte}
    (h : seekRead addr n s = .ok bytes t) :
    t = { s with cur := t.cur, ioAnswers := t.ioAnswers, draws := t.draws } := by
  obtain ⟨u, hu, rfl⟩ := seekRead_ok h
  rcases (srcRead_ok hu).2.2 with ⟨-, rfl⟩ | ⟨-, -, rfl⟩
  · rfl
  · rw [s.afterAnswer_eq]
    rfl

/-- A read that raises changes the cursor and the environment's records only. -/
theorem seekRead_raised_frame {addr : Word64} {n : Nat} {s t : State} {e : ReadError}
    (h : seekRead addr n s = .raised e t) :
    t = { s with cur := t.cur, ioAnswers := t.ioAnswers, draws := t.draws } := by
  obtain ⟨u, hu, rfl⟩ := seekRead_raised h
  obtain ⟨-, rfl, -⟩ := srcRead_raised hu
  rw [s.afterAnswer_eq]
  rfl

/-- A read that returns bytes from a reliable environment asks nothing of it. -/
theorem seekRead_ok_of_reliable {addr : Word64} {n : Nat} {s t : State} {bytes : List Byte}
    (hr : s.ioReliable = true) (h : seekRead addr n s = .ok bytes t) :
    t.ioAnswers = s.ioAnswers ∧ t.draws = s.draws := by
  obtain ⟨u, hu, rfl⟩ := seekRead_ok h
  rcases (srcRead_ok hu).2.2 with ⟨-, rfl⟩ | ⟨-, -, rfl⟩
  · exact ⟨rfl, rfl⟩
  · rw [State.afterAnswer_of_reliable hr]
    exact ⟨rfl, rfl⟩

/-- The state in which work that reads `SRC` ends, however it ends. -/
def ReadOutcome.final {α : Type} : ReadOutcome α → State
  | .ok _ s => s
  | .raised _ s => s

/-- A read uses up at most one answer of the environment. -/
theorem seekRead_answers (addr : Word64) (n : Nat) (s : State) :
    ∃ k, k ≤ 1 ∧ (seekRead addr n s).final.ioAnswers = s.ioAnswers.drop k := by
  have ha : ∃ k, k ≤ 1 ∧ s.afterAnswer.ioAnswers = s.ioAnswers.drop k := by
    unfold State.afterAnswer
    split
    · exact ⟨0, Nat.zero_le _, rfl⟩
    · exact ⟨1, le_refl _, by simp [State.countDraw, State.useAnswer, List.drop_one]⟩
  rcases h : seekRead addr n s with ⟨bytes, t⟩ | ⟨e, t⟩
  · obtain ⟨u, hu, rfl⟩ := seekRead_ok h
    rcases (srcRead_ok hu).2.2 with ⟨-, rfl⟩ | ⟨-, -, rfl⟩
    · exact ⟨0, Nat.zero_le _, rfl⟩
    · exact ha
  · obtain ⟨u, hu, rfl⟩ := seekRead_raised h
    obtain ⟨-, rfl, -⟩ := srcRead_raised hu
    exact ha

end Sys2Proof.Machine
end

