-- ==== Sys2Proof/Laws/PlaneDecode.lean ====
section
/-!
SUPPORT. What the row loop of a plane decode can do: in terms of `DST` alone (`storeRows`), where it ends
normally, and as a frame, where a read raises.
-/

namespace Sys2Proof.Machine

/-- The offset in `SRC` of row `r` (R170). -/
def rowOffset (base : Word64) (width r : Nat) : Word64 :=
  base + BitVec.ofNat 64 (r * rowBytes width)

/-- The packed bytes that the read of row `r` returns. -/
def readRow (base : Word64) (width : Nat) (src : List Byte) (r : Nat) : List Byte :=
  (src.drop (rowOffset base width r).toNat).take (rowBytes width)

/-- `DST` after rows `r` to `r + rows - 1` have been unpacked into it. -/
def storeRows (v : Variant) (base : Word64) (width : Nat) (src : List Byte) :
    Nat → Nat → Memory → Memory
  | 0, _, m => m
  | rows + 1, r, m =>
    storeRows v base width src rows (r + 1)
      (Memory.store m (r * width * v.bps) (unpackRow v (readRow base width src r)))

/-- Row `r` can be read: it has no bytes, or they all exist. -/
abbrev RowInSrc (base : Word64) (width : Nat) (src : List Byte) (r : Nat) : Prop :=
  rowBytes width = 0 ∨ (rowOffset base width r).toNat + rowBytes width ≤ src.length

/-! ## The group loop -/

/-- Writing a row group by group is storing the unpacked row (R147, R163). -/
theorem writeGroups_eq (v : Variant) : ∀ (row : List Byte) (addr : Nat) (s : State),
    writeGroups v addr row s = s.withDst (Memory.store s.dst addr (unpackRow v row))
  | b0 :: b1 :: b2 :: b3 :: b4 :: rest, addr, s => by
    rw [writeGroups, writeGroups_eq v rest, unpackRow_group, Memory.store_append,
      length_unpackGroup]
    rfl
  | [], addr, s => by simp [writeGroups, unpackRow, State.withDst]
  | [_], addr, s => by simp [writeGroups, unpackRow, State.withDst]
  | [_, _], addr, s => by simp [writeGroups, unpackRow, State.withDst]
  | [_, _, _], addr, s => by simp [writeGroups, unpackRow, State.withDst]
  | [_, _, _, _], addr, s => by simp [writeGroups, unpackRow, State.withDst]

/-- Writing a row stores the unpacked row buffer at the row's place (R163, R170). -/
theorem writeRow_eq (v : Variant) (width r : Nat) (s : State) :
    writeRow v width r s =
      s.withDst (Memory.store s.dst (r * width * v.bps) (unpackRow v s.rowBuf)) :=
  writeGroups_eq v s.rowBuf _ s

/-! ## The row loop -/

/-- The row loop of R163, one row taken off. -/
theorem decodeRows_succ (v : Variant) (base : Word64) (width rows r : Nat) (s : State) :
    decodeRows v base width (rows + 1) r s =
      match seekRead (rowOffset base width r) (rowBytes width) s with
      | .raised e t => .raised e t
      | .ok row t => decodeRows v base width rows (r + 1) (writeRow v width r (t.withRowBuf row)) :=
  rfl

/-- Everything a row loop that ends normally has done (R164): the rows all existed, `DST` holds them, the
cursor stands behind the last of them, and nothing else but the row buffer and the environment's
records has changed. -/
theorem decodeRows_ok (v : Variant) (base : Word64) (width : Nat) :
    ∀ (rows r : Nat) (s t : State), decodeRows v base width rows r s = .ok () t →
      t = { s with
        dst := storeRows v base width s.src rows r s.dst
        cur := if rows = 0 then s.cur else rowOffset base width (r + rows)
        rowBuf := t.rowBuf, ioAnswers := t.ioAnswers, draws := t.draws } ∧
      ∀ k, k < rows → RowInSrc base width s.src (r + k) := by
  intro rows
  induction rows with
  | zero =>
    intro r s t h
    obtain rfl : s = t := by simpa [decodeRows] using h
    exact ⟨rfl, fun k hk => absurd hk (Nat.not_lt_zero k)⟩
  | succ rows ih =>
    intro r s t h
    rw [decodeRows_succ] at h
    split at h
    · cases h
    · next row u hu =>
      obtain ⟨w, hw, rfl⟩ := seekRead_ok hu
      obtain ⟨hrow, hin, -⟩ := srcRead_ok hw
      have hf := seekRead_ok_frame hu
      have hcur : (w.withCursor (rowOffset base width r + BitVec.ofNat 64 (rowBytes width))).cur =
          rowOffset base width (r + 1) := by
        simp only [State.withCursor_cur, rowOffset, BitVec.add_assoc, ← BitVec.ofNat_add]
        congr 2
        ring
      obtain ⟨ht, hk⟩ := ih _ _ _ h
      generalize hg : w.withCursor (rowOffset base width r + BitVec.ofNat 64 (rowBytes width)) = u
        at h ht hk hf hcur
      rw [writeRow_eq] at ht hk
      rw [hf] at ht hk
      refine ⟨?_, ?_⟩
      · rw [ht]
        simp only [State.withDst, State.withRowBuf, storeRows, readRow, hrow,
          Nat.add_eq_zero_iff, one_ne_zero, and_false, if_false, hcur]
        congr 1
        split
        · next h0 => rw [h0]
        · congr 1
          omega
      · intro k hk'
        rcases k with _ | k
        · exact hin
        · have := hk k (by omega)
          rwa [show r + (k + 1) = r + 1 + k by omega]

/-- Everything a row loop that raises can have done (R167): some row could not be read, the rows before it
could, and nothing but `DST`, the cursor, the row buffer and the environment's records has changed. -/
theorem decodeRows_raised (v : Variant) (base : Word64) (width : Nat) :
    ∀ (rows r : Nat) (s t : State) (e : ReadError),
      decodeRows v base width rows r s = .raised e t →
      (∃ done, done < rows ∧ t = { s with
        dst := storeRows v base width s.src done r s.dst
        cur := t.cur, rowBuf := t.rowBuf, ioAnswers := t.ioAnswers, draws := t.draws } ∧
        (∀ k, k < done → RowInSrc base width s.src (r + k)) ∧
        (e = .shortRead → ¬ RowInSrc base width s.src (r + done))) ∧
      (e = .ioFailure → s.ioReliable = false) := by
  intro rows
  induction rows with
  | zero => intro r s t e h; cases h
  | succ rows ih =>
    intro r s t e h
    rw [decodeRows_succ] at h
    split at h
    · next e' u hu =>
      simp only [ReadOutcome.raised.injEq] at h
      obtain ⟨rfl, rfl⟩ := h
      obtain ⟨w, hw, -⟩ := seekRead_raised hu
      obtain ⟨hn, -, hc⟩ := srcRead_raised hw
      have hf := seekRead_raised_frame hu
      have hb : u.rowBuf = s.rowBuf := by rw [hf]
      refine ⟨⟨0, Nat.succ_pos _, by rw [hb]; exact hf,
        fun k hk => absurd hk (Nat.not_lt_zero k), ?_⟩, ?_⟩
      · rintro rfl
        rcases hc with ⟨-, -, hlt⟩ | ⟨h, -⟩
        · rintro (h | h)
          · exact hn h
          · exact absurd hlt (Nat.not_lt.2 h)
        · cases h
      · rintro rfl
        rcases hc with ⟨h, -⟩ | ⟨-, hf⟩
        · cases h
        · exact hf.1
    · next row u hu =>
      obtain ⟨w, hw, -⟩ := seekRead_ok hu
      obtain ⟨hrow, hin, -⟩ := srcRead_ok hw
      have hf := seekRead_ok_frame hu
      obtain ⟨⟨done, hd, ht, hk, hshort⟩, hio⟩ := ih _ _ _ _ h
      rw [writeRow_eq] at ht hk hshort hio
      rw [hf] at ht hk hshort hio
      refine ⟨⟨done + 1, by omega, ?_, ?_, fun he => ?_⟩, hio⟩
      · rw [ht]
        simp only [State.withDst, State.withRowBuf, storeRows, readRow, hrow]
      · intro k hk'
        rcases k with _ | k
        · exact hin
        · have := hk k (by omega)
          rwa [show r + (k + 1) = r + 1 + k by omega]
      · have := hshort he
        rwa [show r + (done + 1) = r + 1 + done by omega]

/-- A row loop uses up at most one answer of the environment a row (R220). -/
theorem decodeRows_answers (v : Variant) (base : Word64) (width : Nat) :
    ∀ (rows r : Nat) (s : State), ∃ k, k ≤ rows ∧
      (decodeRows v base width rows r s).final.ioAnswers = s.ioAnswers.drop k := by
  intro rows
  induction rows with
  | zero => exact fun r s => ⟨0, le_refl _, rfl⟩
  | succ rows ih =>
    intro r s
    obtain ⟨k, hk, hs⟩ := seekRead_answers (rowOffset base width r) (rowBytes width) s
    rw [decodeRows_succ]
    split
    · next e t ht =>
      rw [ht] at hs
      exact ⟨k, by omega, hs⟩
    · next row t ht =>
      rw [ht] at hs
      obtain ⟨l, hl, hd⟩ := ih (r + 1) (writeRow v width r (t.withRowBuf row))
      refine ⟨k + l, by omega, ?_⟩
      rw [hd, writeRow_eq, State.withDst_ioAnswers, State.withRowBuf_ioAnswers,
        show t.ioAnswers = _ from hs, List.drop_drop]

/-- A row loop that ends normally in a reliable environment asks nothing of it. -/
theorem decodeRows_ok_of_reliable (v : Variant) (base : Word64) (width : Nat) :
    ∀ (rows r : Nat) (s t : State), s.ioReliable = true → decodeRows v base width rows r s = .ok () t →
      t.ioAnswers = s.ioAnswers ∧ t.draws = s.draws := by
  intro rows
  induction rows with
  | zero =>
    intro r s t _ h
    obtain rfl : s = t := by simpa [decodeRows] using h
    exact ⟨rfl, rfl⟩
  | succ rows ih =>
    intro r s t hr h
    rw [decodeRows_succ] at h
    split at h
    · cases h
    · next row u hu =>
      obtain ⟨ha, hd⟩ := seekRead_ok_of_reliable hr hu
      have hf := seekRead_ok_frame hu
      rw [writeRow_eq] at h
      obtain ⟨ha', hd'⟩ := ih _ _ _ (by rw [hf]; exact hr) h
      exact ⟨ha'.trans ha, hd'.trans hd⟩

/-- A row loop over rows that have bytes and all exist, each of whose reads an unreliable environment serves,
ends normally and uses up one answer a row (R55, R164). -/
theorem decodeRows_of_served (v : Variant) (base : Word64) (width : Nat) (rest : List IOAnswer)
    (hn : rowBytes width ≠ 0) :
    ∀ (rows r : Nat) (s : State), s.ioReliable = false →
      s.ioAnswers = List.replicate rows .serve ++ rest →
      (∀ k, k < rows → RowInSrc base width s.src (r + k)) →
      ∃ t, decodeRows v base width rows r s = .ok () t ∧ t.ioAnswers = rest ∧
        t.draws = s.draws + rows := by
  intro rows
  induction rows with
  | zero => exact fun r s _ ha _ => ⟨s, rfl, ha, rfl⟩
  | succ rows ih =>
    intro r s hr ha hk
    have hserve : EnvServes s := .inr (by simp [State.nextAnswer, ha, List.replicate_succ])
    have hrow := (hk 0 (Nat.succ_pos _)).resolve_left hn
    rw [Nat.add_zero] at hrow
    rw [decodeRows_succ, seekRead_of_ok (srcRead_of_bytes hn hserve hrow)]
    dsimp only
    rw [writeRow_eq, State.afterAnswer_of_unreliable hr]
    generalize hu : State.withDst _ _ = u
    have hur : u.ioReliable = false := hu ▸ hr
    have hus : u.src = s.src := hu ▸ rfl
    have hua : u.ioAnswers = List.replicate rows .serve ++ rest := by
      subst hu
      simp [ha, State.useAnswer, List.replicate_succ]
    have hud : u.draws = s.draws + 1 := hu ▸ rfl
    obtain ⟨t, ht, hta, htd⟩ := ih (r + 1) u hur hua fun k hk' => by
      have := hk (k + 1) (by omega)
      rwa [hus, show r + 1 + k = r + (k + 1) by omega]
    exact ⟨t, ht, hta, by omega⟩

/-! ## `DST` after the row loop -/

/-- A byte of `DST` after rows `r` to `r + rows - 1`, each with all its bytes, are stored: inside the rows it
is the byte of the unpacked row, outside it is as before (R164, R170). -/
theorem read_storeRows (v : Variant) (base : Word64) (width : Nat) (src : List Byte)
    (hw : width % 4 = 0) : ∀ (rows r : Nat) (m : Memory) (x : Nat),
      (∀ k, k < rows → (readRow base width src (r + k)).length = rowBytes width) →
      Memory.read (storeRows v base width src rows r m) x =
        if r * (width * v.bps) ≤ x ∧ x < (r + rows) * (width * v.bps) then
          (unpackRow v (readRow base width src (x / (width * v.bps))))[x % (width * v.bps)]?
        else Memory.read m x := by
  intro rows
  induction rows with
  | zero =>
    intro r m x _
    rw [storeRows, if_neg (by rintro ⟨h₁, h₂⟩; simp only [Nat.add_zero] at h₂; omega)]
  | succ rows ih =>
    intro r m x hlen
    have hrow := length_unpackRow_of_width v hw (hlen 0 (Nat.succ_pos _))
    rw [Nat.add_zero] at hrow
    rw [storeRows, ih (r + 1) _ x fun k hk => by
      have := hlen (k + 1) (by omega)
      rwa [show r + (k + 1) = r + 1 + k by omega] at this]
    rw [Memory.read_store, hrow, mul_assoc]
    generalize width * v.bps = n
    have e₁ : (r + 1) * n = r * n + n := by ring
    have e₂ : (r + 1 + rows) * n = r * n + n + rows * n := by ring
    have e₃ : (r + (rows + 1)) * n = r * n + n + rows * n := by ring
    rw [e₁, e₂, e₃]
    by_cases h₁ : r * n + n ≤ x ∧ x < r * n + n + rows * n
    · rw [if_pos h₁, if_pos ⟨by omega, h₁.2⟩]
    · rw [if_neg h₁]
      by_cases h₂ : r * n ≤ x ∧ x < r * n + n
      · rw [if_pos h₂, if_pos ⟨h₂.1, by omega⟩]
        have hdiv : x / n = r := Nat.div_eq_of_lt_le h₂.1 (by rw [e₁]; exact h₂.2)
        have hmod : x % n = x - r * n := by
          have := Nat.div_add_mod x n
          rw [hdiv, Nat.mul_comm] at this
          omega
        rw [hdiv, hmod]
      · rw [if_neg h₂, if_neg (by omega)]

/-- Storing rows inside `DST` keeps its canonical form. -/
theorem wf_storeRows (v : Variant) (base : Word64) (width : Nat) (src : List Byte)
    (hw : width % 4 = 0) : ∀ (rows r : Nat) (m : Memory), Memory.wf m →
      (∀ k, k < rows → (readRow base width src (r + k)).length = rowBytes width) →
      (r + rows) * (width * v.bps) ≤ dstSize →
      Memory.wf (storeRows v base width src rows r m) := by
  intro rows
  induction rows with
  | zero => intro r m hm _ _; exact hm
  | succ rows ih =>
    intro r m hm hlen hsize
    have hrow := length_unpackRow_of_width v hw (hlen 0 (Nat.succ_pos _))
    rw [Nat.add_zero] at hrow
    refine ih (r + 1) _ (Memory.wf_store _ _ _ hm ?_) (fun k hk => ?_) ?_
    · rw [hrow, mul_assoc]
      refine le_trans ?_ hsize
      rw [← Nat.succ_mul]
      exact Nat.mul_le_mul_right _ (by omega)
    · have := hlen (k + 1) (by omega)
      rwa [show r + (k + 1) = r + 1 + k by omega] at this
    · rwa [show r + 1 + rows = r + (rows + 1) by omega]

/-- A row that can be read has all its bytes. -/
theorem length_readRow {base : Word64} {width : Nat} {src : List Byte} {r : Nat}
    (h : RowInSrc base width src r) : (readRow base width src r).length = rowBytes width := by
  rw [readRow, List.length_take, List.length_drop]
  rcases h with h | h <;> omega

end Sys2Proof.Machine
end

