-- ==== Sys2Proof/Laws/FrameIndexer.lean ====
section
/-!
SUPPORT. The 64-bit offsets of the frame indexer are those of unbounded integers for a legal header
(spec/41_frame_indexer.md R132), and the rows of a frame lie where the file's map says
(spec/20_memory.md R62).
-/

namespace Sys2Proof.Machine

/-- `rowBytes` is at most 81918 for a legal width (R131). -/
theorem rowBytes_le {width : Nat} (h : width ≤ 65535) : rowBytes width ≤ 81918 := by
  unfold rowBytes
  omega

/-- A frame of a legal header ends below 2^43 (R8, R132). -/
theorem frameStart_add_le {fi : Word32} {h : Header} (hl : h.Legal) (hf : fi < h.frameCount) :
    frameStart fi h + h.height.toNat * rowBytes h.width.toNat < 2 ^ 43 := by
  obtain ⟨-, hfc, hh, hw⟩ := hl
  have hfi : fi.toNat + 1 ≤ 1023 := by
    have : fi.toNat < h.frameCount.toNat := hf
    omega
  have hprod : h.height.toNat * rowBytes h.width.toNat ≤ 65535 * 81918 :=
    Nat.mul_le_mul hh (rowBytes_le hw)
  have := Nat.mul_le_mul hfi hprod
  unfold frameStart
  rw [mul_assoc]
  have : fi.toNat * (h.height.toNat * rowBytes h.width.toNat) +
      h.height.toNat * rowBytes h.width.toNat ≤ 1023 * (65535 * 81918) := by
    rw [← Nat.succ_mul]
    exact this
  omega

/-- `OFFSET`'s 64-bit value is the offset of unbounded integers (R132). -/
theorem frameOffset_toNat {fi : Word32} {h : Header} (hl : h.Legal) (hf : fi < h.frameCount) :
    (frameOffset fi h.height h.width).toNat = frameStart fi h := by
  have hb := frameStart_add_le hl hf
  have hr := rowBytes_le hl.2.2.2
  unfold frameStart at hb ⊢
  unfold frameOffset
  simp only [BitVec.toNat_add, BitVec.toNat_mul, BitVec.toNat_setWidth, BitVec.toNat_ofNat,
    Nat.mod_mul_mod, Nat.mul_mod_mod, Nat.add_mod_mod, show BitVec.toNat (16 : Word64) = 16 from rfl]
  exact Nat.mod_eq_of_lt (by omega)

/-- Row `r` of a frame of a legal header, `r` at most `height`, starts where the file's map says. -/
theorem rowOffset_toNat {fi : Word32} {h : Header} (hl : h.Legal) (hf : fi < h.frameCount) {r : Nat}
    (hr : r ≤ h.height.toNat) :
    (rowOffset (frameOffset fi h.height h.width) h.width.toNat r).toNat =
      frameStart fi h + r * rowBytes h.width.toNat := by
  have hb := frameStart_add_le hl hf
  have hm : r * rowBytes h.width.toNat ≤ h.height.toNat * rowBytes h.width.toNat :=
    Nat.mul_le_mul_right _ hr
  rw [rowOffset, BitVec.toNat_add, BitVec.toNat_ofNat, frameOffset_toNat hl hf, Nat.add_mod_mod]
  exact Nat.mod_eq_of_lt (by omega)

/-- The bytes that the read of row `r` returns are the packed row of the file's map. -/
theorem readRow_eq_packedRow {fi : Word32} {h : Header} (hl : h.Legal) (hf : fi < h.frameCount)
    (src : List Byte) {r : Nat} (hr : r ≤ h.height.toNat) :
    readRow (frameOffset fi h.height h.width) h.width.toNat src r =
      packedRow src (frameStart fi h) h.width.toNat r := by
  rw [readRow, rowOffset_toNat hl hf hr, packedRow]

/-- All rows of a frame can be read exactly when the frame lies in `SRC`, or has no bytes. -/
theorem rows_inSrc_iff {fi : Word32} {h : Header} (hl : h.Legal) (hf : fi < h.frameCount)
    (s : State) :
    (∀ k, k < h.height.toNat →
      RowInSrc (frameOffset fi h.height h.width) h.width.toNat s.src k) ↔ FrameInSrc fi h s := by
  unfold RowInSrc FrameInSrc
  constructor
  · intro hk
    rcases Nat.eq_zero_or_pos h.height.toNat with h0 | hpos
    · exact .inl (by rw [h0, Nat.zero_mul])
    · rcases hk (h.height.toNat - 1) (by omega) with h0 | hlast
      · exact .inl (by rw [h0, Nat.mul_zero])
      · rw [rowOffset_toNat hl hf (by omega)] at hlast
        refine .inr (le_trans (le_of_eq ?_) hlast)
        have : h.height.toNat * rowBytes h.width.toNat =
            (h.height.toNat - 1) * rowBytes h.width.toNat + rowBytes h.width.toNat := by
          rw [← Nat.succ_mul]
          congr 1
          omega
        omega
  · rintro (h0 | hlen) k hk
    · rcases Nat.mul_eq_zero.1 h0 with h0 | h0
      · omega
      · exact .inl h0
    · refine .inr ?_
      rw [rowOffset_toNat hl hf (by omega)]
      have : (k + 1) * rowBytes h.width.toNat ≤ h.height.toNat * rowBytes h.width.toNat :=
        Nat.mul_le_mul_right _ hk
      rw [Nat.succ_mul] at this
      omega

/-- The plane of a legal header fits in `DST` (R8, R58). -/
theorem planeBytes_le_dstSize (v : Variant) {h : Header} (hl : h.Legal) :
    planeBytes v h ≤ dstSize := by
  obtain ⟨-, -, hh, hw⟩ := hl
  have h₁ : h.height.toNat * h.width.toNat ≤ 65535 * 65535 := Nat.mul_le_mul hh hw
  have h₂ : v.bps ≤ 2 := by cases v <;> decide
  have := Nat.mul_le_mul h₁ h₂
  unfold planeBytes dstSize
  omega

end Sys2Proof.Machine
end

