-- ==== Sys2Proof/Laws/HostPort.lean ====
section
/-!
SUPPORT. What the host reads. A register that holds no value is refused, and no other (R35). A byte of
`DST` depends on the bytes listed and on the draws of the bytes that are not, and a failed decode changes
it below the plane's end only.
-/

namespace Sys2Proof.Machine

/-! ## Registers -/

/-- Everything a read of a header register, or of a view of one, can answer (R23, R24, R35). -/
theorem readHeader_eq_ok_iff {f : Header → Word32} {s : State} {x : RegValue} :
    readHeader f s = .ok x ↔ s.phase = .parsed ∧ x = .word32 (f s.header) := by
  cases hp : s.phase with
  | parsed => simp [readHeader, State.header?_of_parsed hp, eq_comm]
  | unparsed => simp [readHeader, State.header?_of_unparsed hp]

/-- Everything a read of `RES` can answer (R29, R35). -/
theorem readResult_eq_ok_iff {s : State} {x : RegValue} :
    readResult s = .ok x ↔ s.res.written = true ∧ x = .word64 s.res.value := by
  cases hw : s.res.written <;> simp [readResult, ResultRegister.value?, hw, eq_comm]

/-- A read of a header register, or of a view of one, is refused exactly in phase `UNPARSED` (R35). -/
theorem readHeader_refused_iff {f : Header → Word32} {s : State} :
    readHeader f s = .error .holdsNoValue ↔ s.phase = .unparsed := by
  cases hp : s.phase with
  | parsed => simp [readHeader, State.header?_of_parsed hp]
  | unparsed => simp [readHeader, State.header?_of_unparsed hp]

/-- A read of `RES` is refused exactly until its first write (R35). -/
theorem readResult_refused_iff {s : State} :
    readResult s = .error .holdsNoValue ↔ s.res.written = false := by
  cases hw : s.res.written <;> simp [readResult, ResultRegister.value?, hw]

/-! ## `DST` -/

/-- The host reads the same byte in two states that list the same byte there and have made the same draw
for it. -/
theorem readDst_congr {addr : BitVec 33} {s t : State}
    (hr : Memory.read t.dst addr.toNat = Memory.read s.dst addr.toNat)
    (hd : t.drawOf addr.toNat = s.drawOf addr.toNat) : readDst addr t = readDst addr s := by
  simp only [readDst, hr, hd]

/-- An operation that spoils no byte of `DST` and keeps what is listed keeps what the host reads. -/
theorem readDst_frame {addr : BitVec 33} {s t : State}
    (hr : Memory.read t.dst addr.toNat = Memory.read s.dst addr.toNat)
    (hs : t.dstSpoils = s.dstSpoils) : readDst addr t = readDst addr s :=
  readDst_congr hr (by rw [State.drawOf, State.drawOf, hs])

/-- Spoiling the bytes below `n` draws no new value from `n` on. -/
theorem drawOf_noteSpoil_of_le {s : State} {n a : Nat} (h : n ≤ a) :
    (s.noteSpoil n).drawOf a = s.drawOf a := by
  rw [State.drawOf, State.noteSpoil_dstSpoils, List.filter_cons_of_neg (by simpa using h), State.drawOf]

/-- Spoiling the bytes below `n` draws a new value for each of them. -/
theorem drawOf_noteSpoil_of_lt {s : State} {n a : Nat} (h : a < n) :
    (s.noteSpoil n).drawOf a = s.drawOf a + 1 := by
  rw [State.drawOf, State.noteSpoil_dstSpoils, List.filter_cons_of_pos (by simpa using h),
    List.length_cons, State.drawOf]

/-- A failed decode leaves what the host reads from the plane's end on (R167). -/
theorem readDst_spoilPlane {addr : BitVec 33} {s : State} {n : Nat} (h : n ≤ addr.toNat) :
    readDst addr (spoilPlane n s) = readDst addr s := by
  refine readDst_congr ?_ (drawOf_noteSpoil_of_le h)
  rw [spoilPlane, State.noteSpoil_dst, State.withDst_dst, Memory.read_forgetBelow,
    if_neg (Nat.not_lt.2 h)]

end Sys2Proof.Machine
end

