-- ==== Sys2Proof/Laws/Commands.lean ====
section
/-!
SUPPORT. The meaning of each command that checks the phase, with its checks decided; and everything a plane
decode that has passed its checks can do.
-/

namespace Sys2Proof.Machine

/-! ## The checks -/

/-- `PARSE` in phase `PARSED` (R112). -/
theorem execParse_of_parsed {s : State} (hp : s.phase = .parsed) :
    execParse s = .next (raise (.illegalState 1) s) := by
  unfold execParse
  rw [hp]

/-- `PARSE` in phase `UNPARSED` (R110 lines 2 to 7). -/
theorem execParse_of_unparsed {s : State} (hp : s.phase = .unparsed) :
    execParse s =
      match seekRead 0 headerLength s with
      | .raised e t => .next (raise e.kind t)
      | .ok bytes t => .next (finishParse (headerOf bytes) t) := by
  cases s
  cases hp
  rfl

/-- `OFFSET` in phase `UNPARSED` (R134). -/
theorem execOffset_of_unparsed {s : State} (hp : s.phase = .unparsed) (fi : Word32) :
    execOffset fi s = .next (raise (.illegalState 0) s) := by
  unfold execOffset
  rw [hp]

/-- `OFFSET` in phase `PARSED` (R130 lines 2 to 5). -/
theorem execOffset_of_parsed {s : State} {h : Header} (hp : s.HoldsHeader h) (fi : Word32) :
    execOffset fi s =
      if h.frameCount ≤ fi then .next (raise (.outOfRange fi h.frameCount) s)
      else .next (completeOk (s.withResult (frameOffset fi h.height h.width))) := by
  obtain ⟨hp, rfl⟩ := hp
  unfold execOffset
  rw [hp]

/-- A decode in phase `UNPARSED` (R165). -/
theorem decodePlane_of_unparsed {s : State} (hp : s.phase = .unparsed) (v : Variant) (fi : Word32) :
    decodePlane v fi s = .next (raise (.illegalState 0) s) := by
  unfold decodePlane
  rw [hp]

/-- A decode in phase `PARSED` (R163 lines 2 to 7). -/
theorem decodePlane_of_parsed {s : State} {h : Header} (hp : s.HoldsHeader h) (v : Variant)
    (fi : Word32) :
    decodePlane v fi s =
      if h.frameCount ≤ fi then .next (raise (.outOfRange fi h.frameCount) s)
      else if h.width.toNat % 4 ≠ 0 then .next (raise (.unsupportedWidth h.width) s)
      else if dstSize < planeBytes v h then .fault .planeOutsideDst
      else .next (runDecode v fi h s) := by
  obtain ⟨hp, rfl⟩ := hp
  unfold decodePlane
  rw [hp]

/-- A decode whose checks pass, of a plane that fits in `DST`, runs its rows (R163 lines 4 to 7). -/
theorem decodePlane_of_checks {s : State} {h : Header} {fi : Word32} (hc : DecodeChecksPass fi h s)
    (v : Variant) (hsize : planeBytes v h ≤ dstSize) :
    decodePlane v fi s = .next (runDecode v fi h s) := by
  obtain ⟨hp, hf, hw⟩ := hc
  rw [decodePlane_of_parsed hp, if_neg (BitVec.not_le.2 hf), if_neg (by simp [hw]),
    if_neg (Nat.not_lt.2 hsize)]

/-- The decode command of a variant is the shared sequence (R160, R161). -/
@[simp] theorem exec_decodeInstr (v : Variant) (fi : Word32) (s : State) :
    exec (decodeInstr v fi) s = decodePlane v fi s := by
  cases v <;> rfl

/-! ## The rows and the completion -/

/-- Everything a decode past its checks can do, for a header whose offsets do not wrap (R164, R167): it
publishes the plane of a frame that lies in `SRC`, or it disowns it after a read that failed. -/
theorem runDecode_cases {v : Variant} {fi : Word32} {h : Header} {s : State} (hl : h.Legal)
    (hf : fi < h.frameCount) :
    (∃ t : State, runDecode v fi h s = { s with
        dst := storeRows v (frameOffset fi h.height h.width) h.width.toNat s.src h.height.toNat 0 s.dst
        dstValid := true, dstV := v, rowBuf := []
        cur := BitVec.ofNat 64 (frameStart fi h + h.height.toNat * rowBytes h.width.toNat)
        ioAnswers := t.ioAnswers, draws := t.draws, err := 0, eInfo0 := 0, eInfo1 := 0, eInfo2 := 0 } ∧
      FrameInSrc fi h s ∧
      (s.ioReliable = true → t.ioAnswers = s.ioAnswers ∧ t.draws = s.draws)) ∨
    (∃ (e : ReadError) (t : State) (done : Nat), done < h.height.toNat ∧
      runDecode v fi h s = { s with
        dst := Memory.forgetBelow (storeRows v (frameOffset fi h.height h.width) h.width.toNat s.src
          done 0 s.dst) (planeBytes v h)
        dstSpoils := planeBytes v h :: s.dstSpoils
        dstValid := false, rowBuf := [], cur := t.cur
        ioAnswers := t.ioAnswers, draws := t.draws
        err := e.kind.code, eInfo0 := 0, eInfo1 := 0, eInfo2 := 0 } ∧
      (∀ k, k < done →
        RowInSrc (frameOffset fi h.height h.width) h.width.toNat s.src k) ∧
      (e = .shortRead → ¬ FrameInSrc fi h s) ∧ (e = .ioFailure → s.ioReliable = false)) := by
  have hbase := frameOffset_toNat hl hf
  have hend := frameStart_add_le hl hf
  have hcur : (if h.height.toNat = 0 then frameOffset fi h.height h.width
      else rowOffset (frameOffset fi h.height h.width) h.width.toNat (0 + h.height.toNat)) =
      BitVec.ofNat 64 (frameStart fi h + h.height.toNat * rowBytes h.width.toNat) := by
    apply BitVec.eq_of_toNat_eq
    rw [BitVec.toNat_ofNat, Nat.mod_eq_of_lt (by omega)]
    split
    · next h0 => rw [hbase, h0, Nat.zero_mul, Nat.add_zero]
    · rw [Nat.zero_add, rowOffset_toNat hl hf (le_refl _)]
  unfold runDecode
  dsimp only
  split
  · next u t ht =>
    have hio := fun hr : s.ioReliable = true =>
      decodeRows_ok_of_reliable v _ _ _ _ (beginDecode (frameOffset fi h.height h.width) s) _ hr ht
    obtain ⟨ht, hin⟩ := decodeRows_ok _ _ _ _ _ _ _ ht
    refine .inl ⟨t, ?_, (rows_inSrc_iff hl hf s).1 fun k hk => by simpa using hin k hk, hio⟩
    rw [ht, ← hcur]
    rfl
  · next e t ht =>
    obtain ⟨⟨done, hd, ht, hk, hshort⟩, hio⟩ := decodeRows_raised _ _ _ _ _ _ _ _ ht
    refine .inr ⟨e, t, done, hd, ?_, fun k hk' => by simpa using hk k hk', fun he hin => ?_, hio⟩
    · rw [ht]
      cases e <;> rfl
    · have := hshort he
      rw [Nat.zero_add] at this
      exact this ((rows_inSrc_iff hl hf s).2 hin done hd)

/-- A decode past its checks uses up at most one answer of the environment a row (R220). -/
theorem runDecode_answers (v : Variant) (fi : Word32) (h : Header) (s : State) :
    ∃ k, k ≤ h.height.toNat ∧ (runDecode v fi h s).ioAnswers = s.ioAnswers.drop k := by
  obtain ⟨k, hk, ha⟩ := decodeRows_answers v (frameOffset fi h.height h.width) h.width.toNat
    h.height.toNat 0 (beginDecode (frameOffset fi h.height h.width) s)
  refine ⟨k, hk, ?_⟩
  unfold runDecode
  dsimp only
  split
  · next u t ht =>
    rw [ht] at ha
    exact ha
  · next e t ht =>
    rw [ht] at ha
    exact ha

/-! ## What each command can do, whatever the state -/

/-- Everything `PARSE` can do (R38, R110): it latches a legal header and completes normally, or it keeps the
phase; no other register of the block but `CUR` and the completion registers changes. -/
theorem execParse_effects {s t : State} (h : execParse s = .next t) :
    t.dstValid = s.dstValid ∧ t.dstV = s.dstV ∧ t.res = s.res ∧ t.dst = s.dst ∧
    t.rowBuf = s.rowBuf ∧ t.dstSpoils = s.dstSpoils ∧ t.src = s.src ∧ t.ioReliable = s.ioReliable ∧
    t.host = s.host ∧
    ((t.err = 0 ∧ t.cur = 16 ∧ s.phase = .unparsed ∧ 16 ≤ s.src.length ∧
        (headerOf (s.src.take 16)).magic = formatMagic ∧
        (headerOf (s.src.take 16)).dimensionsLegal = true ∧
        t.HoldsHeader (headerOf (s.src.take 16))) ∨
      (t.phase = s.phase ∧ t.header = s.header) ∧ (t.err = 7 ∧ t.cur = s.cur ∨ (t.err = 1 ∨ t.err = 2) ∧ t.cur = 16 ∨
        t.err = 4 ∨ t.err = 5)) := by
  cases hp : s.phase with
  | parsed =>
    rw [execParse_of_parsed hp] at h
    cases h
    exact ⟨rfl, rfl, rfl, rfl, rfl, rfl, rfl, rfl, rfl, .inr ⟨⟨hp, rfl⟩, .inl ⟨rfl, rfl⟩⟩⟩
  | unparsed =>
    rw [execParse_of_unparsed hp] at h
    split at h
    · next e u hu =>
      have hf := seekRead_raised_frame hu
      cases h
      rw [hf]
      refine ⟨rfl, rfl, rfl, rfl, rfl, rfl, rfl, rfl, rfl, .inr ⟨⟨hp, rfl⟩, ?_⟩⟩
      cases e
      · exact .inr (.inr (.inl rfl))
      · exact .inr (.inr (.inr rfl))
    · next b u hu =>
      have hf := seekRead_ok_frame hu
      obtain ⟨w, hr, hw⟩ := seekRead_ok hu
      obtain ⟨hb, hin, -⟩ := srcRead_ok hr
      have hc : u.cur = 16 := by rw [hw]; rfl
      obtain rfl : b = s.src.take 16 := hb
      have hlen : 16 ≤ s.src.length := by
        rcases hin with h0 | h0
        · cases h0
        · simpa [headerLength] using h0
      cases h
      rw [hc] at hf
      rw [hf]
      unfold finishParse
      split_ifs with h₁ h₂
      · exact ⟨rfl, rfl, rfl, rfl, rfl, rfl, rfl, rfl, rfl, .inr ⟨⟨hp, rfl⟩, .inr (.inl ⟨.inl rfl, rfl⟩)⟩⟩
      · exact ⟨rfl, rfl, rfl, rfl, rfl, rfl, rfl, rfl, rfl, .inr ⟨⟨hp, rfl⟩, .inr (.inl ⟨.inr rfl, rfl⟩)⟩⟩
      · exact ⟨rfl, rfl, rfl, rfl, rfl, rfl, rfl, rfl, rfl, .inl ⟨rfl, rfl, rfl, hlen, not_not.1 h₁,
          Bool.not_eq_false _ ▸ h₂, rfl, rfl⟩⟩

/-- Everything `SNIFF` can do (R38, R118). -/
theorem execSniff_effects {s t : State} (h : execSniff s = .next t) :
    t = { s with res := t.res, err := t.err, eInfo0 := 0, eInfo1 := 0, eInfo2 := 0,
                 ioAnswers := t.ioAnswers, draws := t.draws } ∧
    (t.err = 0 ∧ t.res.written = true ∨ t.res = s.res ∧ (t.err = 4 ∨ t.err = 5)) := by
  unfold execSniff at h
  split at h
  · next e u hu =>
    obtain ⟨-, rfl, -⟩ := srcRead_raised hu
    cases h
    rw [s.afterAnswer_eq]
    cases e
    · exact ⟨rfl, .inr ⟨rfl, .inl rfl⟩⟩
    · exact ⟨rfl, .inr ⟨rfl, .inr rfl⟩⟩
  · next b u hu =>
    obtain ⟨-, -, hh⟩ := srcRead_ok hu
    cases h
    rcases hh with ⟨-, rfl⟩ | ⟨-, -, rfl⟩
    · exact ⟨rfl, .inl ⟨rfl, rfl⟩⟩
    · rw [s.afterAnswer_eq]
      exact ⟨rfl, .inl ⟨rfl, rfl⟩⟩

/-- Everything `OFFSET` can do (R38, R130). -/
theorem execOffset_effects {fi : Word32} {s t : State} (h : execOffset fi s = .next t) :
    t = { s with res := t.res, err := t.err, eInfo0 := t.eInfo0, eInfo1 := t.eInfo1, eInfo2 := 0 } ∧
    (t.err = 0 ∧ t.res.written = true ∨ t.res = s.res ∧ (t.err = 3 ∨ t.err = 7)) := by
  cases hp : s.phase with
  | unparsed =>
    rw [execOffset_of_unparsed hp] at h
    rw [← hp]
    cases h
    exact ⟨rfl, .inr ⟨rfl, .inr rfl⟩⟩
  | parsed =>
    rw [execOffset_of_parsed ⟨hp, rfl⟩] at h
    rw [← hp]
    split_ifs at h <;> cases h
    · exact ⟨rfl, .inr ⟨rfl, .inl rfl⟩⟩
    · exact ⟨rfl, .inl ⟨rfl, rfl⟩⟩

/-- Everything a decode can do beside `DST`, whatever the header registers hold (R38, R164 to R167). -/
theorem decodePlane_effects {v : Variant} {fi : Word32} {s t : State}
    (h : decodePlane v fi s = .next t) :
    t.phase = s.phase ∧ t.header = s.header ∧ t.res = s.res ∧ t.src = s.src ∧
    t.ioReliable = s.ioReliable ∧ t.host = s.host ∧
    ((t.err = 3 ∨ t.err = 6 ∨ t.err = 7) ∧
        t = { s with err := t.err, eInfo0 := t.eInfo0, eInfo1 := t.eInfo1, eInfo2 := 0 } ∨
      t.rowBuf = [] ∧ (t.err = 0 ∧ t.dstValid = true ∧ t.dstV = v ∨
        (t.err = 4 ∨ t.err = 5) ∧ t.dstValid = false ∧ t.dstV = s.dstV)) := by
  cases hp : s.phase with
  | unparsed =>
    rw [decodePlane_of_unparsed hp] at h
    rw [← hp]
    cases h
    exact ⟨rfl, rfl, rfl, rfl, rfl, rfl, .inl ⟨.inr (.inr rfl), rfl⟩⟩
  | parsed =>
    rw [decodePlane_of_parsed ⟨hp, rfl⟩] at h
    rw [← hp]
    split_ifs at h with h₁ h₂ h₃
    · cases h
      exact ⟨rfl, rfl, rfl, rfl, rfl, rfl, .inl ⟨.inl rfl, rfl⟩⟩
    · cases h
      exact ⟨rfl, rfl, rfl, rfl, rfl, rfl, .inl ⟨.inr (.inl rfl), rfl⟩⟩
    · cases h
      unfold runDecode
      dsimp only
      split
      · next u w hw =>
        obtain ⟨hf, -⟩ := decodeRows_ok _ _ _ _ _ _ _ hw
        rw [hf]
        exact ⟨rfl, rfl, rfl, rfl, rfl, rfl, .inr ⟨rfl, .inl ⟨rfl, rfl, rfl⟩⟩⟩
      · next e w hw =>
        obtain ⟨⟨done, -, hf, -⟩, -⟩ := decodeRows_raised _ _ _ _ _ _ _ _ hw
        rw [hf]
        cases e
        · exact ⟨rfl, rfl, rfl, rfl, rfl, rfl, .inr ⟨rfl, .inr ⟨.inl rfl, rfl, rfl⟩⟩⟩
        · exact ⟨rfl, rfl, rfl, rfl, rfl, rfl, .inr ⟨rfl, .inr ⟨.inr rfl, rfl, rfl⟩⟩⟩

/-- The completion codes end at 8 (R181). -/
theorem ErrorKind.code_le (e : ErrorKind) : e.code.toNat ≤ 8 := by
  cases e <;> exact Nat.le_of_ble_eq_true rfl

/-! ## The plane in `DST` -/

/-- Rows that can be read leave `DST` from the plane's end on as it was (R164, R167). -/
theorem read_storeRows_above {v : Variant} {fi : Word32} {h : Header} {src : List Byte} {done a : Nat}
    (m : Memory) (hw : h.width.toNat % 4 = 0) (hd : done ≤ h.height.toNat)
    (hk : ∀ k, k < done → RowInSrc (frameOffset fi h.height h.width) h.width.toNat src k)
    (ha : planeBytes v h ≤ a) :
    Memory.read (storeRows v (frameOffset fi h.height h.width) h.width.toNat src done 0 m) a =
      Memory.read m a := by
  rw [read_storeRows v _ _ _ hw done 0 m a fun k hk' => by
    rw [Nat.zero_add]; exact length_readRow (hk k hk')]
  refine if_neg fun hlt => absurd hlt.2 (Nat.not_lt.2 (le_trans ?_ ha))
  rw [Nat.zero_add, planeBytes, mul_assoc]
  exact Nat.mul_le_mul_right _ hd

/-- Byte `k` of row `r` of the plane of a frame that lies in `SRC` (R164). -/
theorem read_storeRows_plane {v : Variant} {fi : Word32} {h : Header} {s : State} {r k : Nat}
    (m : Memory) (hl : h.Legal) (hf : fi < h.frameCount) (hw : h.width.toNat % 4 = 0)
    (hin : FrameInSrc fi h s) (hr : r < h.height.toNat) (hk : k < h.width.toNat * v.bps) :
    Memory.read (storeRows v (frameOffset fi h.height h.width) h.width.toNat s.src h.height.toNat 0 m)
        (r * (h.width.toNat * v.bps) + k) =
      (unpackRow v (packedRow s.src (frameStart fi h) h.width.toNat r))[k]? := by
  have hrows := (rows_inSrc_iff hl hf s).2 hin
  rw [read_storeRows v _ _ _ hw _ 0 m _ fun k hk' => by
    rw [Nat.zero_add]; exact length_readRow (hrows k hk')]
  have hpos : 0 < h.width.toNat * v.bps := Nat.lt_of_le_of_lt (Nat.zero_le _) hk
  have hdiv : (r * (h.width.toNat * v.bps) + k) / (h.width.toNat * v.bps) = r := by
    rw [Nat.add_comm, Nat.add_mul_div_right _ _ hpos, Nat.div_eq_of_lt hk, Nat.zero_add]
  have hmod : (r * (h.width.toNat * v.bps) + k) % (h.width.toNat * v.bps) = k := by
    rw [Nat.add_comm, Nat.add_mul_mod_self_right, Nat.mod_eq_of_lt hk]
  have hle : (r + 1) * (h.width.toNat * v.bps) ≤ h.height.toNat * (h.width.toNat * v.bps) :=
    Nat.mul_le_mul_right _ hr
  rw [Nat.succ_mul] at hle
  rw [hdiv, hmod, readRow_eq_packedRow hl hf _ (le_of_lt hr), if_pos ⟨by rw [Nat.zero_mul]; exact Nat.zero_le _,
    by rw [Nat.zero_add]; omega⟩]

end Sys2Proof.Machine
end

