-- ==== Sys2Proof/Laws/Encoding.lean ====
section
/-!
SUPPORT. The words of the encoder bit by bit: which operand bit stands at each of the 48 places (R80, R83).
-/

namespace Sys2Proof

/-- The bits of a word with a frame index. -/
theorem getLsbD_encodeFrame (op : BitVec 4) (v : BitVec 1) (fi : Word32) (i : Nat) :
    (encodeFrame op v fi).getLsbD i =
      if i < 32 then fi.getLsbD i
      else if i < 43 then false
      else if i < 44 then v.getLsbD (i - 43)
      else op.getLsbD (i - 44) := by
  rw [show encodeFrame op v fi = BitVec.cast (by rfl : 4 + 1 + 3 + 8 + 32 = 48)
    (op ++ v ++ (0 : BitVec 3) ++ (0 : BitVec 8) ++ fi) from rfl]
  simp only [BitVec.getLsbD_cast, BitVec.getLsbD_append]
  split_ifs <;> first | rfl | omega | exact BitVec.getLsbD_zero

/-- The bits of a word with a group. -/
theorem getLsbD_encodeGroup (v : BitVec 1) (b0 b1 b2 b3 b4 : Byte) (i : Nat) :
    (encodeGroup v b0 b1 b2 b3 b4).getLsbD i =
      if i < 8 then b0.getLsbD i
      else if i < 16 then b1.getLsbD (i - 8)
      else if i < 24 then b2.getLsbD (i - 16)
      else if i < 32 then b3.getLsbD (i - 24)
      else if i < 40 then b4.getLsbD (i - 32)
      else if i < 43 then false
      else if i < 44 then v.getLsbD (i - 43)
      else (0x5 : BitVec 4).getLsbD (i - 44) := by
  rw [show encodeGroup v b0 b1 b2 b3 b4 = BitVec.cast (by rfl : 4 + 1 + 3 + 8 + 8 + 8 + 8 + 8 = 48)
    ((0x5 : BitVec 4) ++ v ++ (0 : BitVec 3) ++ b4 ++ b3 ++ b2 ++ b1 ++ b0) from rfl]
  simp only [BitVec.getLsbD_cast, BitVec.getLsbD_append]
  split_ifs <;> first | rfl | omega | exact BitVec.getLsbD_zero

end Sys2Proof
end

