-- ==== Sys2Proof/Laws/PerInstr.lean ====
section
/-!
SUPPORT. A fact about every command as syntax, proved command by command: its word selects the row of R82's
table that bears its mnemonic.
-/

namespace Sys2Proof.Laws.RowOfWord

/-- The row of R82's table for a mnemonic. -/
def rowOf (m : Mnemonic) : Option OpcodeRow := opcodeRows.find? (fun row => decide (row.mnemonic = m))

/-- The word of the command selects the row of its mnemonic. -/
def Statement (i : Instr) : Prop :=
  ∃ row, rowOf i.line.mnemonic = some row ∧ row.selects (encode i) = true

/-- A frame index leaves the upper 16 bits of its word alone. -/
theorem encodeFrame_and (op : BitVec 4) (v : BitVec 1) (fi : Word32) :
    encodeFrame op v fi &&& 0xFFFF00000000 = encodeFrame op v 0 := by
  apply BitVec.eq_of_getLsbD_eq
  intro i hi
  rw [BitVec.getLsbD_and, getLsbD_encodeFrame, getLsbD_encodeFrame]
  interval_cases i <;> simp

/-- A group leaves the upper 8 bits of its word alone. -/
theorem encodeGroup_and (v : BitVec 1) (b0 b1 b2 b3 b4 : Byte) :
    encodeGroup v b0 b1 b2 b3 b4 &&& 0xFF0000000000 = encodeGroup v 0 0 0 0 0 := by
  apply BitVec.eq_of_getLsbD_eq
  intro i hi
  rw [BitVec.getLsbD_and, getLsbD_encodeGroup, getLsbD_encodeGroup]
  interval_cases i <;> simp

theorem parse : Statement .parse := ⟨_, rfl, by decide⟩

theorem sniff : Statement .sniff := ⟨_, rfl, by decide⟩

theorem offset (fi : Word32) : Statement (.offset fi) :=
  ⟨_, rfl, decide_eq_true ((encodeFrame_and 0x3 0 fi).trans (by decide))⟩

theorem decode8 (fi : Word32) : Statement (.decode8 fi) :=
  ⟨_, rfl, decide_eq_true ((encodeFrame_and 0x4 0 fi).trans (by decide))⟩

theorem decode16 (fi : Word32) : Statement (.decode16 fi) :=
  ⟨_, rfl, decide_eq_true ((encodeFrame_and 0x4 1 fi).trans (by decide))⟩

theorem unpk8 (b0 b1 b2 b3 b4 : Byte) : Statement (.unpk8 b0 b1 b2 b3 b4) :=
  ⟨_, rfl, decide_eq_true ((encodeGroup_and 0 b0 b1 b2 b3 b4).trans (by decide))⟩

theorem unpk16 (b0 b1 b2 b3 b4 : Byte) : Statement (.unpk16 b0 b1 b2 b3 b4) :=
  ⟨_, rfl, decide_eq_true ((encodeGroup_and 1 b0 b1 b2 b3 b4).trans (by decide))⟩

end Sys2Proof.Laws.RowOfWord
end

