-- ==== Sys2Proof/Laws/Step.lean ====
section
/-!
SUPPORT. Everything a step that answers a next state can have done, said once: an invariant of the machine is
proved case by case from here.
-/

namespace Sys2Proof.Machine

/-- A step that answers a next state was idle, ran a decoded command, completed an illegal word, reset the
block, or wrote a byte of `DST` (R20, R66, R85, R210). -/
theorem step_cases {s t : State} (h : step s = .next t) :
    (s.host = [] ∧ t = s) ∨
    ∃ rest,
      (∃ cw i, s.host = .command cw :: rest ∧ decode cw = .ok i ∧ exec i (s.withHost rest) = .next t) ∨
      (∃ cw, s.host = .command cw :: rest ∧ (∃ e, decode cw = .error e) ∧
        t = raise (.illegalCommand cw) (s.withHost rest)) ∨
      (∃ src rel, s.host = .reset src rel :: rest ∧ src.length < srcLimit ∧
        t = resetBlock src rel (s.withHost rest)) ∨
      (∃ addr b, s.host = .writeDst addr b :: rest ∧ t = memWrite addr.toNat [b] (s.withHost rest)) := by
  unfold step at h
  split at h
  · next hidle => cases h; exact .inl ⟨hidle, rfl⟩
  · next e rest hnext =>
    refine .inr ⟨rest, ?_⟩
    cases e with
    | command cw =>
      simp only [runEvent, takeCommand] at h
      split at h
      · next i hi => exact .inl ⟨cw, i, hnext, hi, h⟩
      · next e he => cases h; exact .inr (.inl ⟨cw, hnext, ⟨e, he⟩, rfl⟩)
    | reset src rel =>
      simp only [runEvent] at h
      split at h
      · next hl => cases h; exact .inr (.inr (.inl ⟨src, rel, hnext, hl, rfl⟩))
      · cases h
    | writeDst addr b => cases h; exact .inr (.inr (.inr ⟨addr, b, hnext, rfl⟩))

end Sys2Proof.Machine
end

