-- ==== Sys2Proof/Laws/Syntax.lean ====
section
/-!
SUPPORT. Every command is well formed: its operand types are exactly as wide as its fields.
-/

namespace Sys2Proof

theorem Instr.wellFormed_all (i : Instr) : i.wellFormed = true := by
  have h32 (x : Word32) : x.toNat < 4294967296 := x.isLt
  have h8 (x : Byte) : x.toNat < 256 := x.isLt
  cases i <;>
    simp [Instr.wellFormed, Instr.line, AsmLine.wellFormed, Mnemonic.operandCount,
      Mnemonic.operandBound, h32, h8]

end Sys2Proof
end

