-- ==== Sys2Proof/Tests/Slice0.lean ====
section
/-!
SUPPORT. Tests. Expected values come from spec/95_test_vectors.md (`V` and `T-` vectors, programs `P`), the
examples of spec/30_encoding.md R88 and the table of R82. The witnesses at the end show, for each
obligation with hypotheses, a concrete state and operands that meet them together.
-/

namespace Sys2Proof.Tests

open Sys2Proof.Machine

/-! ## Helpers -/

/-- The 16 bytes of a header with the right magic and one-byte dimensions (R90). -/
def hdr (fc h w : Byte) : List Byte :=
  [0x10, 0x10, 0x10, 0x10, fc, 0, 0, 0, h, 0, 0, 0, w, 0, 0, 0]

/-- The header registers after a `PARSE` of `hdr`. -/
def regs (fc h w : Word32) : Header := ⟨0x10101010, fc, h, w⟩

/-- The bytes 1 to 15. -/
def rows15 : List Byte := [1, 2, 3, 4, 5, 6, 7, 8, 9, 10, 11, 12, 13, 14, 15]

/-- The block just after a reset that binds a stream, with a reliable environment. -/
def bound (src : List Byte) : State := { State.reset with src := src }

/-- The block after a reset and a normal `PARSE`. -/
def parsed (src : List Byte) (h : Header) : State :=
  { bound src with phase := .parsed, header := h, cur := 16 }

/-- The state with an unreliable environment that gives the answers listed. -/
def answered (s : State) (answers : List IOAnswer) : State :=
  { s with ioReliable := false, ioAnswers := answers }

/-- The next state, if there is one. -/
def nextOf : Host.Outcome State Fault Refusal → Option State
  | .next t => some t
  | _ => none

/-- The next state after the block takes a command word. -/
def after (s : State) (cw : Nat) : Option State := nextOf (step (s.withFetchWord 48 cw))

/-- `ERR`, `EINFO0`, `EINFO1`, `EINFO2`. -/
def completion (s : State) : Word32 × Word32 × Word32 × Word32 :=
  (s.err, s.eInfo0, s.eInfo1, s.eInfo2)

/-- The known bytes of `DST` from address 0 on. -/
def dstBytes (n : Nat) (s : State) : List (Option Byte) :=
  (List.range n).map (fun a => Memory.read s.dst a)

/-- The header of T-D8 and P4: 2 frames of 2 rows of 4 pixels. -/
def h224 : Header := regs 2 2 4

/-- The state of T-D8 and P4: frame 1 lacks its second row. -/
def cut : State := parsed (hdr 2 2 4 ++ rows15) h224

/-- The state of T-D3: one frame of one row. -/
def one : State := parsed (hdr 1 1 4 ++ [1, 2, 3, 4, 5]) (regs 1 1 4)

/-! ## Well-formed lines (R88): one ill-formed line for each check, and the bounds themselves -/

theorem test_wf_no_operand : (AsmLine.mk .PARSE [0]).wellFormed = false := by decide
theorem test_wf_operand_missing : (AsmLine.mk .OFFSET []).wellFormed = false := by decide
theorem test_wf_four_bytes : (AsmLine.mk .UNPK8 [1, 2, 3, 4]).wellFormed = false := by decide
theorem test_wf_index_range : (AsmLine.mk .DECODE16 [2 ^ 32]).wellFormed = false := by decide
theorem test_wf_byte_range : (AsmLine.mk .UNPK16 [1, 2, 3, 4, 256]).wellFormed = false := by decide
theorem test_wf_bounds : (AsmLine.mk .DECODE8 [2 ^ 32 - 1]).wellFormed = true ∧
    (AsmLine.mk .UNPK8 [0, 255, 0, 255, 255]).wellFormed = true := by decide

/-! ## Decoding: words written out from the fields of R80 to R83 -/

theorem test_decode_parse :
    decode 0b000100000000000000000000000000000000000000000000 = .ok .parse := by decide
theorem test_decode_sniff :
    decode 0b001000000000000000000000000000000000000000000000 = .ok .sniff := by decide
theorem test_decode_offset :
    decode 0b001100000000000010000000000000000000000000000011 = .ok (.offset 0x80000003) := by decide
theorem test_decode_decode8 :
    decode 0b010000000000000000000000000000000000000000000001 = .ok (.decode8 1) := by decide
theorem test_decode_decode16 :
    decode 0b010010000000000000000000000000000000001111111110 = .ok (.decode16 1022) := by decide
/-- T-U4. -/
theorem test_decode_unpk8 :
    decode 0b010100000100001011101111101111101010110111011110 =
      .ok (.unpk8 0xDE 0xAD 0xBE 0xEF 0x42) := by decide
/-- T-U4. -/
theorem test_decode_unpk16 :
    decode 0b010110000100001011101111101111101010110111011110 =
      .ok (.unpk16 0xDE 0xAD 0xBE 0xEF 0x42) := by decide

/-- T-I1 to T-I3 and T-I14: the operation codes that are no command. -/
theorem test_illegal_opcode : decode 0 = .error .opcode ∧ decode 0x600000000000 = .error .opcode ∧
    decode 0xF00000000000 = .error .opcode ∧ decode 0xFFFFFFFFFFFF = .error .reserved := by decide
/-- T-I8, T-I10, T-I12, T-I13. -/
theorem test_illegal_reserved : decode 0x310000000000 = .error .reserved ∧
    decode 0x410000000000 = .error .reserved ∧ decode 0x540000000000 = .error .reserved ∧
    decode 0x5F0504030201 = .error .reserved := by decide
/-- T-I4, T-I6, T-I7. -/
theorem test_illegal_variant : decode 0x180000000000 = .error .variant ∧
    decode 0x280000000000 = .error .variant ∧ decode 0x380000000000 = .error .variant := by decide
/-- T-I5, and `SNIFF` with the highest bit of `imm`. -/
theorem test_illegal_immediate : decode 0x100000000001 = .error .immediate ∧
    decode 0x208000000000 = .error .immediate := by decide
/-- T-I9, T-I11. -/
theorem test_illegal_immediate_high : decode 0x300100000000 = .error .immediateHigh ∧
    decode 0x48FF00000000 = .error .immediateHigh := by decide
/-- Five bytes, and seven, are no command word (R81). -/
theorem test_illegal_length : decodeBytes [0, 0, 0, 0, 0x10] = .error .length ∧
    decodeBytes [0, 0, 0, 0, 0, 0x10, 0] = .error .length := by decide
/-- The bytes of `UNPK16 1,2,3,4,5`, least significant first (R81, R88). -/
theorem test_transport : decodeBytes [0x01, 0x02, 0x03, 0x04, 0x05, 0x58] =
    .ok (.unpk16 1 2 3 4 5) := by decide

/-! ## The examples of R88 -/

theorem test_assemble_offset : assemble "OFFSET 2".toList = some 0x300000000002 := by decide
theorem test_assemble_decode16 : assemble "DECODE16 0 ; first frame".toList = some 0x480000000000 := by
  decide
theorem test_assemble_unpk16 :
    assemble "UNPK16 0x01,0x02,0x03,0x04,0x05".toList = some 0x580504030201 := by decide
theorem test_assemble_unpk8 : assemble "UNPK8 0,0,0,0,0xAB".toList = some 0x50AB00000000 := by decide
theorem test_assemble_refuses : assemble "OFFSET 4294967296".toList = none ∧
    assemble "PARSE 1".toList = none ∧ assemble "NOP".toList = none := by decide

/-! ## One step of each command -/

/-- T-P11. -/
theorem test_parse_bad_magic :
    (after (bound ([0x11, 0x10, 0x10, 0x10] ++ List.replicate 12 1)) 0x100000000000).map
      (fun t => (t.phase, t.cur, completion t)) = some (.unparsed, 16, 1, 0x10101011, 0, 0) := by
  decide
/-- T-P2: the largest dimensions are accepted, and `ROWBYTES` is 81918. -/
theorem test_parse_largest :
    (after (bound [0x10, 0x10, 0x10, 0x10, 0xFF, 3, 0, 0, 0xFF, 0xFF, 0, 0, 0xFF, 0xFF, 0, 0])
      0x100000000000).map (fun t => (t.header?, readRegister 9 t)) =
      some (some (regs 1023 65535 65535), .ok (.word32 81918)) := by decide
/-- T-S2. -/
theorem test_sniff_no : (after (bound [0x10, 0x10, 0x10, 0x11]) 0x200000000000).map
    (fun t => (t.res.value?, t.cur, t.err)) = some (some 0, 0, 0) := by decide
/-- T-S4. -/
theorem test_sniff_short : (after (bound [0x10, 0x10, 0x10]) 0x200000000000).map
    (fun t => (t.res.value?, t.cur, t.err)) = some (none, 0, 4) := by decide
/-- T-O5. -/
theorem test_offset_largest : (after (parsed [] (regs 1023 65535 65535)) 0x3000000003FE).map
    (fun t => t.res.value?) = some (some 0x000004FD7306880C) := by decide
/-- T-O14. -/
theorem test_offset_out_of_range : (after (parsed [] (regs 3 2 8)) 0x3000FFFFFFFF).map
    (fun t => (t.res.value?, completion t)) = some (none, 3, 0xFFFFFFFF, 3, 0) := by decide
/-- T-U4. -/
theorem test_unpk8 : (after (bound []) 0x5042EFBEADDE).map (fun t => t.res.value?) =
    some (some 0x0000000042BEEA77) := by decide
/-- T-U4. -/
theorem test_unpk16 : (after (bound []) 0x5842EFBEADDE).map (fun t => t.res.value?) =
    some (some 0x010B02FB03AB01DE) := by decide
/-- T-D8. -/
theorem test_decode8_two_rows : (after cut 0x400000000000).map
    (fun t => (dstBytes 9 t, statusWord t, t.cur)) =
    some ([some 0x80, some 0x30, some 0x10, some 0x05, some 0xC1, some 0x80, some 0x24, some 0x0A,
      none], 3, 26) := by decide
/-- T-D9: the second row of frame 1 is missing. -/
theorem test_decode8_short : (after { cut with dst := [(7, 9), (8, 9)], dstValid := true }
    0x400000000001).map (fun t => (dstBytes 9 t, statusWord t, completion t)) =
    some (List.replicate 8 none ++ [some 9], 1, 4, 0, 0, 0) := by decide
/-- T-D3. -/
theorem test_decode16 : (after one 0x480000000000).map (fun t => (dstBytes 9 t, statusWord t, t.cur)) =
    some ([some 0x01, some 0x02, some 0xC0, some 0x00, some 0x40, some 0x00, some 0x14, some 0x00,
      none], 7, 21) := by decide
/-- T-D6. -/
theorem test_decode16_width : (after (parsed (hdr 1 1 6 ++ List.replicate 7 0) (regs 1 1 6))
    0x480000000000).map (fun t => (completion t, t.cur)) = some ((6, 6, 0, 0), 16) := by decide
/-- T-I4 in phase `PARSED`: decoding comes before the phase check (R86, R183). -/
theorem test_illegal_before_phase : (after one 0x180000000000).map completion =
    some (8, 0, 0x1800, 0) := by decide

/-! ## Witnesses of the invariant's hypotheses -/

/-- A state of the invariant in phase `PARSED`, with a valid plane in `DST`. -/
def valid : State :=
  { one with dst := [(0, 0x80), (1, 0x30), (2, 0x10), (3, 0x05)], dstValid := true, cur := 21 }

theorem test_valid_inv : valid.Inv where
  dst_wf := by decide
  src_short := by decide
  err_code := by decide
  rowBuf_empty := rfl
  header_of_src _ := by decide
  plane_specified _ := ⟨rfl, by decide, by decide⟩

theorem test_cut_inv : cut.Inv where
  dst_wf := by decide
  src_short := by decide
  err_code := by decide
  rowBuf_empty := rfl
  header_of_src _ := by decide
  plane_specified h := by cases h

/-! ## Witnesses: the hypotheses of each statement can be met together -/

/-- The host's next action, and no other. -/
def acting (s : State) (e : HostEvent) : State := s.withHost [e]

theorem test_witness_ResetEventRestoresReset : ∃ (s : State) (src : List Byte),
    s.host = .reset src false :: [] ∧ src.length < 2 ^ 63 :=
  ⟨acting valid (.reset (hdr 1 1 4) false), hdr 1 1 4, rfl, by decide⟩
theorem test_witness_IdleStepChangesNothing : ∃ s : State, s.host = [] := ⟨valid, rfl⟩
theorem test_witness_StepRunsDecodedCommand : ∃ (s : State) (cw : CommandWord),
    s.host = .command cw :: [] ∧ decode cw = .ok (.decode8 0) :=
  ⟨acting valid (.command 0x400000000000), _, rfl, by decide⟩
/-- A state that presents an illegal word, and an illegal word for each clause of R85. -/
theorem test_witness_IllegalWordsComplete :
    (∃ s : State, s.host = .command 0x600000000000 :: []) ∧
    ∀ cw ∈ ([0, 0x600000000000, 0xF00000000000, 0x510000000000, 0x180000000000, 0x380000000000,
      0x200000000001, 0x308000000000, 0x480100000000] : List CommandWord), IllegalWord cw :=
  ⟨⟨acting valid (.command 0x600000000000), rfl⟩, fun cw h => by fin_cases h <;> decide⟩
theorem test_witness_HostWritesDst : ∃ s : State, s.host = .writeDst (2 ^ 33 - 1) 7 :: [] :=
  ⟨acting valid (.writeDst (2 ^ 33 - 1) 7), rfl⟩
theorem test_witness_EncodeOfDecode : decode 0x50AB00000000 = .ok (.unpk8 0 0 0 0 0xAB) := by decide
theorem test_witness_DecoderAgreesWithOpcodeMap :
    ∃ row ∈ opcodeRows, row.selects 0x4800FFFFFFFF = true := by decide
theorem test_witness_TransportCarriesTheWord : ([] : List Byte).length ≠ 6 := by decide
theorem test_witness_AssemblyLineEncodesItsCommand :
    assembleLine ⟨.OFFSET, [2]⟩ = some 0x300000000002 := by decide
theorem test_witness_Unpack16LosesNothing : ∃ b : Byte, unpack16 b 0 0 0 0 = unpack16 b 0 0 0 0 := ⟨0xA5, rfl⟩
/-- Two groups that differ, and agree in lane 1. -/
theorem test_witness_LanesDoNotInteract :
    sample (groupWord 0xFF 0x03 0 0 0) 1 = sample (groupWord 0 0 0 0 0xFF) 1 := by decide
theorem test_witness_RowUnpacksGroupByGroup :
    ∃ row : List Byte, row.length = 5 * 2 ∧ 1 < 2 ∧ 7 < 4 * Variant.variant16.bps :=
  ⟨List.replicate 10 0xA5, by decide⟩

/-- Clauses on a served read: a stream with a legal header, in phase `UNPARSED`. -/
theorem test_witness_ParseLatchesHeader : ∃ s : State, s.phase = .unparsed ∧ 16 ≤ s.src.length ∧
    EnvServes s ∧ (headerOf (s.src.take 16)).Legal :=
  ⟨answered (bound (hdr 1 1 4)) [.serve], by decide⟩
theorem test_witness_ParseReportsBadMagicFirst : ∃ s : State, s.phase = .unparsed ∧
    16 ≤ s.src.length ∧ EnvServes s ∧ wordAt s.src 0 ≠ 0x10101010 :=
  ⟨bound (List.replicate 16 0xFF), by decide⟩
/-- The hypotheses of `ParseReportsBadDimensions` that its two clauses share. -/
abbrev RightMagic (s : State) : Prop := s.phase = .unparsed ∧ 16 ≤ s.src.length ∧ EnvServes s ∧
  wordAt s.src 0 = 0x10101010
/-- The first illegal value of each field, alone (T-P3 to T-P5): 1024, 65536, 65536. -/
theorem test_witness_ParseReportsBadDimensions :
    (∃ s : State, RightMagic s ∧ (wordAt s.src 4).toNat = 1024 ∧ (wordAt s.src 8).toNat ≤ 65535 ∧
      (wordAt s.src 12).toNat ≤ 65535) ∧
    (∃ s : State, RightMagic s ∧ (wordAt s.src 4).toNat ≤ 1023 ∧ (wordAt s.src 8).toNat = 65536 ∧
      (wordAt s.src 12).toNat ≤ 65535) ∧
    (∃ s : State, RightMagic s ∧ (wordAt s.src 4).toNat ≤ 1023 ∧ (wordAt s.src 8).toNat ≤ 65535 ∧
      (wordAt s.src 12).toNat = 65536) :=
  ⟨⟨bound [0x10, 0x10, 0x10, 0x10, 0, 4, 0, 0, 0, 0, 0, 0, 0, 0, 0, 0], by decide⟩,
    ⟨bound [0x10, 0x10, 0x10, 0x10, 0, 0, 0, 0, 0, 0, 1, 0, 0, 0, 0, 0], by decide⟩,
    ⟨bound [0x10, 0x10, 0x10, 0x10, 0, 0, 0, 0, 0, 0, 0, 0, 0, 0, 1, 0], by decide⟩⟩
/-- The last legal value of every field (T-P2). -/
theorem test_witness_ParseReportsBadDimensions_legal :
    ∃ s : State, RightMagic s ∧ (wordAt s.src 4).toNat = 1023 ∧ (wordAt s.src 8).toNat = 65535 ∧
      (wordAt s.src 12).toNat = 65535 :=
  ⟨bound [0x10, 0x10, 0x10, 0x10, 0xFF, 3, 0, 0, 0xFF, 0xFF, 0, 0, 0xFF, 0xFF, 0, 0], by decide⟩
theorem test_witness_SecondParseIsIllegalState : one.phase = .parsed := rfl
/-- T-P14 for the served read; a failing environment for the other. -/
theorem test_witness_ParseReadFailure :
    (∃ s : State, s.phase = .unparsed ∧ EnvServes s ∧ s.src.length = 15) ∧
    (∃ s : State, s.phase = .unparsed ∧ EnvFails s) :=
  ⟨⟨bound ((hdr 1 1 1).take 15), by decide⟩, ⟨answered (bound (hdr 1 1 1)) [.fail], by decide⟩⟩
theorem test_witness_ParseFrame : ∃ s t : State, exec .parse s = .next t ∧ t.phase ≠ s.phase :=
  ⟨bound (hdr 1 1 4), _, rfl, by decide⟩
theorem test_witness_SniffResult : ∃ s : State, 4 ≤ s.src.length ∧ EnvServes s :=
  ⟨bound [0x10, 0x10, 0x10, 0x10], by decide⟩
theorem test_witness_SniffReadFailure :
    (∃ s : State, EnvServes s ∧ s.src.length = 3) ∧ (∃ s : State, EnvFails s) :=
  ⟨⟨bound [0x10, 0x10, 0x10], by decide⟩, ⟨answered one [.fail], by decide⟩⟩
theorem test_witness_SniffFrame : ∃ s t : State, exec .sniff s = .next t ∧ t.err ≠ 0 :=
  ⟨bound [], _, rfl, by decide⟩
theorem test_witness_SniffConfirmsParsedHeader :
    valid.Inv ∧ valid.HoldsHeader (regs 1 1 4) ∧ EnvServes valid :=
  ⟨test_valid_inv, ⟨rfl, rfl⟩, .inl rfl⟩

theorem test_witness_OffsetResult : (parsed [] (regs 1023 65535 65535)).HoldsHeader
    (regs 1023 65535 65535) ∧ (regs 1023 65535 65535).Legal ∧ (1022 : Word32) < 1023 :=
  ⟨⟨rfl, rfl⟩, by decide, by decide⟩
theorem test_witness_OffsetRefusals : (bound []).phase = .unparsed ∧
    ∃ h, (parsed [] h).HoldsHeader h ∧ h.frameCount ≤ 3 :=
  ⟨rfl, regs 3 2 8, ⟨rfl, rfl⟩, by decide⟩
theorem test_witness_OffsetIsLinear : (parsed [] (regs 3 2 8)).HoldsHeader (regs 3 2 8) ∧
    (regs 3 2 8).Legal ∧ (1 : Word32).toNat + 1 < (regs 3 2 8).frameCount.toNat :=
  ⟨⟨rfl, rfl⟩, by decide, by decide⟩
theorem test_witness_OffsetAndGroupFrame : ∃ t : State, exec (.offset 0) (bound []) = .next t ∧
    t.err ≠ 0 := ⟨_, rfl, by decide⟩

theorem test_witness_DecodeRefusals : (bound []).phase = .unparsed ∧
    one.HoldsHeader (regs 1 1 4) ∧ (regs 1 1 4).frameCount ≤ 1 :=
  ⟨rfl, ⟨rfl, rfl⟩, by decide⟩
/-- A width of 6, and a width of 0 whose decode completes. -/
theorem test_witness_DecodeRefusesOddWidths :
    ((0 : Word32) < (regs 1 1 6).frameCount ∧ (regs 1 1 6).width.toNat % 4 ≠ 0) ∧
    ∃ t, exec (decodeInstr .variant16 2) (parsed [] (regs 3 5 0)) = .next t ∧ t.err = 0 :=
  ⟨by decide, _, rfl, by decide⟩
theorem test_witness_DecodePublishesPlane : DecodeChecksPass 0 h224 cut ∧ h224.Legal ∧
    cut.ioReliable = true ∧ FrameInSrc 0 h224 cut := by decide
theorem test_witness_DecodePublishesPlaneWhenServed : ∃ s : State, DecodeChecksPass 0 h224 s ∧
    h224.Legal ∧ s.ioReliable = false ∧ 1 ≤ rowBytes h224.width.toNat ∧
    s.ioAnswers = List.replicate h224.height.toNat .serve ++ [.fail] ∧ FrameInSrc 0 h224 s :=
  ⟨answered cut [.serve, .serve, .fail], by decide⟩
theorem test_witness_DecodedPixelsAreStreamSlices : DecodeChecksPass 0 h224 cut ∧ h224.Legal ∧
    1 < h224.height.toNat ∧ 3 < h224.width.toNat ∧
    (∃ t, exec (.decode8 0) cut = .next t ∧ t.err = 0) ∧
    (∃ t, exec (.decode16 0) cut = .next t ∧ t.err = 0) :=
  ⟨by decide, by decide, by decide, by decide, ⟨_, rfl, by decide⟩, ⟨_, rfl, by decide⟩⟩
theorem test_witness_DecodePublishesOrDisowns : DecodeChecksPass 1 h224 (answered cut [.serve, .fail]) ∧
    h224.Legal := by decide
theorem test_witness_DecodeOfTruncatedFrameIsShortRead : DecodeChecksPass 1 h224 cut ∧ h224.Legal ∧
    cut.ioReliable = true ∧ ¬ FrameInSrc 1 h224 cut := by decide
theorem test_witness_DecodeStopsAtFailedRow : ∃ s : State, DecodeChecksPass 0 h224 s ∧ h224.Legal ∧
    s.ioReliable = false ∧ s.ioAnswers = List.replicate 1 .serve ++ .fail :: [.serve] ∧
    1 < h224.height.toNat ∧ 1 ≤ rowBytes h224.width.toNat ∧
    frameStart 0 h224 + 1 * rowBytes h224.width.toNat ≤ s.src.length :=
  ⟨answered cut [.serve, .fail, .serve], by decide⟩
/-- T-D11 and T-D12. -/
theorem test_witness_EmptyPlaneDecodes :
    (DecodeChecksPass 2 (regs 3 0 8) (parsed [] (regs 3 0 8)) ∧ (regs 3 0 8).height = 0) ∧
    (DecodeChecksPass 2 (regs 3 5 0) (parsed [] (regs 3 5 0)) ∧ (regs 3 5 0).width = 0) := by decide
/-- A decode in phase `UNPARSED`; a normal one, whose plane ends at address 8; one out of range. -/
theorem test_witness_DecodeFrame :
    (∃ s t : State, s.phase = .unparsed ∧ Memory.read s.dst 7 = some 9 ∧
      exec (decodeInstr .variant8 0) s = .next t ∧ t.err = 7) ∧
    (cut.HoldsHeader h224 ∧ planeBytes .variant8 h224 = 8 ∧
      ∃ t, exec (decodeInstr .variant8 0) cut = .next t ∧ t.err = 0) ∧
    (∃ t, exec (decodeInstr .variant8 2) valid = .next t ∧ t.err = 3) :=
  ⟨⟨{ bound [] with dst := [(7, 9)] }, _, rfl, rfl, rfl, by decide⟩,
    ⟨⟨rfl, rfl⟩, by decide, _, rfl, by decide⟩, ⟨_, rfl, by decide⟩⟩
theorem test_witness_VariantsAgree : DecodeChecksPass 0 h224 cut ∧ h224.Legal ∧
    7 < h224.height.toNat * h224.width.toNat ∧
    (∃ t, exec (.decode8 0) cut = .next t ∧ t.err = 0) ∧
    (∃ u, exec (.decode16 0) cut = .next u ∧ u.err = 0) :=
  ⟨by decide, by decide, by decide, ⟨_, rfl, by decide⟩, ⟨_, rfl, by decide⟩⟩
/-- Two streams that agree in frame 0 and differ behind it; and two frames. -/
theorem test_witness_PlaneDependsOnItsFrameOnly : ∃ s' : State,
    DecodeChecksPass 0 h224 cut ∧ DecodeChecksPass 0 h224 s' ∧ h224.Legal ∧ cut.src ≠ s'.src ∧
    (∀ n, frameStart 0 h224 ≤ n → n < frameStart 0 h224 + h224.height.toNat * rowBytes h224.width.toNat →
      srcByte cut.src n = srcByte s'.src n) ∧
    (∃ t, exec (decodeInstr .variant8 0) cut = .next t ∧ t.err = 0) ∧
    (∃ t', exec (decodeInstr .variant8 0) s' = .next t' ∧ t'.err = 0) ∧ (0 : Word32) < 1 :=
  ⟨parsed (hdr 2 2 4 ++ rows15.take 10) h224, by decide, by decide, by decide, by decide,
    fun n h₁ h₂ => by
      have h₃ : 16 ≤ n := h₁
      have h₄ : n < 26 := h₂
      interval_cases n <;> rfl,
    ⟨_, rfl, by decide⟩, ⟨_, rfl, by decide⟩, by decide⟩
theorem test_witness_WholeFileDecodes : valid.Inv ∧ DecodeChecksPass 0 (regs 1 1 4) valid ∧
    valid.ioReliable = true ∧ expectedLength (regs 1 1 4) ≤ valid.src.length :=
  ⟨test_valid_inv, by decide, by decide, by decide⟩
theorem test_witness_DecodeMakesAtMostHeightReads : cut.HoldsHeader h224 ∧
    ∃ t, exec (decodeInstr .variant16 1) cut = .next t := ⟨⟨rfl, rfl⟩, _, rfl⟩

/-- A read of no byte; one that ends exactly at `SRC_LEN`; one a byte longer; one that is failed. -/
theorem test_witness_SourceReadOutcomes : EnvServes one ∧ (16 : Word64).toNat + 5 ≤ one.src.length ∧
    one.src.length < (16 : Word64).toNat + 6 ∧ EnvFails (answered one [.fail]) ∧
    ∃ bytes t, seekRead 16 5 one = .ok bytes t :=
  ⟨.inl rfl, by decide, by decide, by decide, _, _, rfl⟩
theorem test_witness_RowBytesView : (bound []).phase = .unparsed ∧ valid.Inv ∧
    valid.HoldsHeader (regs 1 1 4) := ⟨rfl, test_valid_inv, rfl, rfl⟩
theorem test_witness_ReadPortByNumber : (bound []).res.written = false ∧
    (bound []).phase = .unparsed ∧ (valid.withResult 1).res.written = true ∧
    valid.HoldsHeader (regs 1 1 4) := ⟨rfl, rfl, rfl, rfl, rfl⟩
theorem test_witness_StepKeepsInvariant : ∃ s t : State, s.Inv ∧ step s = .next t ∧ t.dst ≠ s.dst :=
  ⟨cut.withFetchWord 48 0x400000000000, _,
    ⟨test_cut_inv.dst_wf, test_cut_inv.src_short, test_cut_inv.err_code, test_cut_inv.rowBuf_empty,
      test_cut_inv.header_of_src, test_cut_inv.plane_specified⟩, rfl, by decide⟩
theorem test_witness_EveryStepCompletes : ∃ s : State, s.Inv := ⟨valid, test_valid_inv⟩
theorem test_witness_OnlyResetLeavesParsed : ∃ (s t : State) (h : Header), s.HoldsHeader h ∧
    step s = .next t ∧ ¬ t.HoldsHeader h :=
  ⟨acting valid (.reset [] true), _, regs 1 1 4, ⟨rfl, rfl⟩, rfl, by decide⟩
theorem test_witness_OnlyParseEntersParsed : ∃ s t : State, s.phase = .unparsed ∧
    step s = .next t ∧ t.phase = .parsed :=
  ⟨(bound (hdr 1 1 4)).withFetchWord 48 0x100000000000, _, rfl, rfl, rfl⟩
theorem test_witness_OnlyResetBindsSource : ∃ s t : State, step s = .next t ∧ t.src ≠ s.src :=
  ⟨acting valid (.reset [7] true), _, rfl, by decide⟩
theorem test_witness_WritersOfEachRegister : ∃ t : State, exec .sniff one = .next t ∧
    t.res ≠ one.res := ⟨_, rfl, by decide⟩
theorem test_witness_ErrorsArePrecise : ∃ t : State, exec (.decode8 1) cut = .next t ∧ t.err ≠ 0 :=
  ⟨_, rfl, by decide⟩
theorem test_witness_CompletionCodesPerCommand : ∃ t : State, exec .parse (bound []) = .next t ∧
    t.err = 4 := ⟨_, rfl, by decide⟩

end Sys2Proof.Tests
end

/-! # Proofs: the state, its invariant, and what each command may write (spec/10_state.md)

First the rules: the status word and the read port, the word of `PARSE`, what the seven commands can do, said
once for three classes of them (`instr_cases`), `DST` after a decode, and that each of these keeps the
invariant. Then the theorems that settle the statements. -/

namespace Sys2Proof.Machine

/-! ## The status word and the read port -/

/-- Appending one bit below a word doubles the word and adds the bit. -/
theorem toNat_append_bit {n : Nat} (x : BitVec n) (b : BitVec 1) :
    (x ++ b).toNat = 2 * x.toNat + b.toNat := by
  rw [BitVec.toNat_append, ← Nat.shiftLeft_add_eq_or_of_lt b.isLt, Nat.shiftLeft_eq]
  omega

theorem statusWord_toNat (s : State) :
    (statusWord s).toNat = s.phase.bit.toNat + 2 * s.dstValid.toNat + 4 * s.dstV.bit.toNat := by
  have h : (statusWord s).toNat =
      2 * (2 * (2 * (0 : BitVec 29).toNat + s.dstV.bit.toNat) + (BitVec.ofBool s.dstValid).toNat) +
        s.phase.bit.toNat := by
    rw [← toNat_append_bit, ← toNat_append_bit, ← toNat_append_bit]
    rfl
  rw [h, BitVec.toNat_ofBool, show (0 : BitVec 29).toNat = 0 from rfl]
  omega

/-- The header registers and `ROWBYTES` are refused in phase `UNPARSED` (R35). -/
theorem readRegister_header_refused {s : State} (hp : s.phase = .unparsed) {n : Nat} (h₁ : 5 ≤ n)
    (h₂ : n ≤ 9) : readRegister n s = .error .holdsNoValue := by
  interval_cases n <;> exact readHeader_refused_iff.2 hp

theorem readRegister_result_refused {s : State} (hw : s.res.written = false) :
    readRegister 10 s = .error .holdsNoValue :=
  readResult_refused_iff.2 hw

theorem readRegister_rowBytes {s : State} {h : Header} (hp : s.HoldsHeader h) :
    readRegister 9 s = .ok (.word32 (rowBytesView h)) := by
  obtain ⟨hp, rfl⟩ := hp
  exact readHeader_eq_ok_iff.2 ⟨hp, rfl⟩

theorem rowBytesView_toNat {h : Header} (hw : h.width.toNat ≤ 65535) :
    (rowBytesView h).toNat = rowBytes h.width.toNat := by
  have := rowBytes_le hw
  rw [rowBytesView, BitVec.toNat_ofNat, Nat.mod_eq_of_lt (by omega)]

/-! ## The word of `PARSE` -/

/-- A plain command decodes to its own instruction only, and only with `v` and `imm` zero (R85). -/
theorem decodePlain_eq_ok {i j : Instr} {cw : CommandWord} (h : decodePlain i cw = .ok j) :
    j = i ∧ vField cw = 0 ∧ immField cw = 0 := by
  unfold decodePlain at h
  split_ifs at h with hv himm
  cases h
  exact ⟨rfl, not_not.1 hv, not_not.1 himm⟩

theorem decodeFrame_eq_ok {mk : Word32 → Instr} {j : Instr} {cw : CommandWord}
    (h : decodeFrame mk cw = .ok j) : j = mk (frameIndexField cw) := by
  unfold decodeFrame at h
  split_ifs at h
  cases h
  rfl

/-- The fields of R80 determine the word: op 1 and zeros elsewhere is the word of `PARSE` in R82. -/
theorem word_eq_parse_of_fields {cw : CommandWord} (hop : opField cw = 1) (hv : vField cw = 0)
    (hrsv : rsvField cw = 0) (himm : immField cw = 0) : cw = 0x100000000000 := by
  have hop := congrArg BitVec.toNat hop
  have hv := congrArg BitVec.toNat hv
  have hrsv := congrArg BitVec.toNat hrsv
  have himm := congrArg BitVec.toNat himm
  simp only [opField, vField, rsvField, immField, BitVec.extractLsb'_toNat,
    Nat.shiftRight_eq_div_pow, BitVec.reduceToNat] at hop hv hrsv himm
  apply BitVec.eq_of_toNat_eq
  simp only [BitVec.reduceToNat]
  omega

/-- The only word that decodes to `PARSE` is the one of R82. -/
theorem word_of_decode_parse {cw : CommandWord} (h : decode cw = .ok .parse) :
    cw = 0x100000000000 := by
  unfold decode at h
  split_ifs at h with hrsv hop
  · obtain ⟨-, hv, himm⟩ := decodePlain_eq_ok h
    exact word_eq_parse_of_fields hop hv (not_not.1 hrsv) himm
  · cases (decodePlain_eq_ok h).1
  · cases decodeFrame_eq_ok h
  · cases decodeFrame_eq_ok h
  · cases decodeFrame_eq_ok h
  · cases h
  · cases h

/-! ## What any command can do -/

/-- The commands whose one register beside the completion registers is `RES` (R29). -/
abbrev IsResultCommand (i : Instr) : Prop :=
  i = .sniff ∨ (∃ fi, i = .offset fi) ∨ (∃ b0 b1 b2 b3 b4, i = .unpk8 b0 b1 b2 b3 b4) ∨
    (∃ b0 b1 b2 b3 b4, i = .unpk16 b0 b1 b2 b3 b4)

/-- Everything `OFFSET`, `UNPK8` and `UNPK16` can do: they ask nothing of the environment (R130, R145,
R146). -/
theorem exec_offset_or_group_effects {i : Instr} {s t : State}
    (hi : (∃ fi, i = .offset fi) ∨ (∃ b0 b1 b2 b3 b4, i = .unpk8 b0 b1 b2 b3 b4) ∨
      (∃ b0 b1 b2 b3 b4, i = .unpk16 b0 b1 b2 b3 b4))
    (h : exec i s = .next t) :
    t = { s with res := t.res, err := t.err, eInfo0 := t.eInfo0, eInfo1 := t.eInfo1,
                 eInfo2 := t.eInfo2 } ∧
    (t.err = 0 ∧ t.res.written = true ∨ t.res = s.res ∧ (t.err = 3 ∨ t.err = 7)) := by
  rcases hi with ⟨fi, rfl⟩ | ⟨b0, b1, b2, b3, b4, rfl⟩ | ⟨b0, b1, b2, b3, b4, rfl⟩
  · obtain ⟨ht, hres⟩ := execOffset_effects h
    exact ⟨by rw [ht], hres⟩
  · cases h
    exact ⟨rfl, .inl ⟨rfl, rfl⟩⟩
  · cases h
    exact ⟨rfl, .inl ⟨rfl, rfl⟩⟩

/-- Everything a command for `RES` can do: it writes `RES` and completes normally, or it keeps `RES` and
completes with the code of an error (R38, R118, R130). -/
theorem exec_result_effects {i : Instr} {s t : State} (hi : IsResultCommand i)
    (h : exec i s = .next t) :
    t = { s with res := t.res, err := t.err, eInfo0 := t.eInfo0, eInfo1 := t.eInfo1,
                 eInfo2 := t.eInfo2, ioAnswers := t.ioAnswers, draws := t.draws } ∧
    (t.err = 0 ∧ t.res.written = true ∨
      t.res = s.res ∧ (t.err = 3 ∨ t.err = 4 ∨ t.err = 5 ∨ t.err = 7)) := by
  rcases hi with rfl | hi
  · obtain ⟨ht, hres⟩ := execSniff_effects h
    exact ⟨by rw [ht], hres.imp_right (And.imp_right fun herr => .inr (herr.imp_right .inl))⟩
  · obtain ⟨ht, hres⟩ := exec_offset_or_group_effects hi h
    exact ⟨by rw [ht], hres.imp_right (And.imp_right (Or.imp_right (.inr ∘ .inr)))⟩

/-- Every command is `PARSE`, a decode, or a command for `RES`. -/
theorem instr_cases (i : Instr) :
    i = .parse ∨ (∃ v fi, i = decodeInstr v fi) ∨ IsResultCommand i := by
  cases i with
  | parse => exact .inl rfl
  | decode8 fi => exact .inr (.inl ⟨.variant8, fi, rfl⟩)
  | decode16 fi => exact .inr (.inl ⟨.variant16, fi, rfl⟩)
  | sniff => exact .inr (.inr (.inl rfl))
  | offset fi => exact .inr (.inr (.inr (.inl ⟨fi, rfl⟩)))
  | unpk8 b0 b1 b2 b3 b4 => exact .inr (.inr (.inr (.inr (.inl ⟨b0, b1, b2, b3, b4, rfl⟩))))
  | unpk16 b0 b1 b2 b3 b4 => exact .inr (.inr (.inr (.inr (.inr ⟨b0, b1, b2, b3, b4, rfl⟩))))

/-- No command binds a parameter or acts for the host (R31, R36). -/
theorem exec_keeps_environment {i : Instr} {s t : State} (h : exec i s = .next t) :
    t.src = s.src ∧ t.ioReliable = s.ioReliable := by
  rcases instr_cases i with rfl | ⟨v, fi, rfl⟩ | hi
  · obtain ⟨-, -, -, -, -, -, hsrc, hrel, -⟩ := execParse_effects h
    exact ⟨hsrc, hrel⟩
  · rw [exec_decodeInstr] at h
    obtain ⟨-, -, -, hsrc, hrel, -⟩ := decodePlane_effects h
    exact ⟨hsrc, hrel⟩
  · rw [(exec_result_effects hi h).1]
    exact ⟨rfl, rfl⟩

/-- A command keeps the phase and the header registers, or it is a `PARSE` that latches them in phase
`UNPARSED` and completes normally (R22, R23). -/
theorem exec_phase_cases {i : Instr} {s t : State} (h : exec i s = .next t) :
    (t.phase = s.phase ∧ t.header = s.header) ∨ (i = .parse ∧ s.phase = .unparsed ∧ t.err = 0) := by
  rcases instr_cases i with rfl | ⟨v, fi, rfl⟩ | hi
  · obtain ⟨-, -, -, -, -, -, -, -, -, ⟨herr, -, hp, -⟩ | ⟨hkept, -⟩⟩ := execParse_effects h
    · exact .inr ⟨rfl, hp, herr⟩
    · exact .inl hkept
  · rw [exec_decodeInstr] at h
    obtain ⟨hp, hh, -⟩ := decodePlane_effects h
    exact .inl ⟨hp, hh⟩
  · rw [(exec_result_effects hi h).1]
    exact .inl ⟨rfl, rfl⟩

/-! ## `DST` after a decode, whatever the header registers hold -/

/-- The rows of frame `fi` below `done` can all be read, and `done` of them belong to the plane. -/
abbrev RowsReadable (fi : Word32) (h : Header) (src : List Byte) (done : Nat) : Prop :=
  done ≤ h.height.toNat ∧
    ∀ k, k < done → RowInSrc (frameOffset fi h.height h.width) h.width.toNat src k

/-- `DST` once the rows of frame `fi` below `done` are unpacked into it. -/
abbrev dstAfterRows (v : Variant) (fi : Word32) (h : Header) (src : List Byte) (done : Nat)
    (m : Memory) : Memory :=
  storeRows v (frameOffset fi h.height h.width) h.width.toNat src done 0 m

/-- Everything the rows and the completion of a decode can do to `DST` (R164, R167): all rows are stored and
the plane published, or some are and the plane is made unspecified. -/
theorem runDecode_dst_cases (v : Variant) (fi : Word32) (h : Header) (s : State) :
    ∃ done, RowsReadable fi h s.src done ∧
      ((done = h.height.toNat ∧ (runDecode v fi h s).dst = dstAfterRows v fi h s.src done s.dst ∧
          (runDecode v fi h s).dstSpoils = s.dstSpoils ∧ (runDecode v fi h s).dstV = v) ∨
        ((runDecode v fi h s).dst =
            (dstAfterRows v fi h s.src done s.dst).forgetBelow (planeBytes v h) ∧
          (runDecode v fi h s).dstSpoils = planeBytes v h :: s.dstSpoils ∧
          (runDecode v fi h s).dstValid = false)) := by
  unfold runDecode
  dsimp only
  split
  · next u t ht =>
    obtain ⟨ht, hrows⟩ := decodeRows_ok _ _ _ _ _ _ _ ht
    refine ⟨h.height.toNat, ⟨le_refl _, fun k hk => by simpa using hrows k hk⟩, .inl ⟨rfl, ?_⟩⟩
    rw [ht]
    exact ⟨rfl, rfl, rfl⟩
  · next e t ht =>
    obtain ⟨⟨done, hd, ht, hrows, -⟩, -⟩ := decodeRows_raised _ _ _ _ _ _ _ _ ht
    refine ⟨done, ⟨le_of_lt hd, fun k hk => by simpa using hrows k hk⟩, .inr ?_⟩
    rw [ht]
    exact ⟨rfl, rfl, rfl⟩

/-- A decode that answers a next state failed one of its checks, or ran its rows on a plane of whole groups
that fits in `DST` (R163, R183). -/
theorem decodePlane_cases {v : Variant} {fi : Word32} {s t : State}
    (h : decodePlane v fi s = .next t) :
    (∃ e : ErrorKind, t = raise e s) ∨
    (s.phase = .parsed ∧ s.header.width.toNat % 4 = 0 ∧ planeBytes v s.header ≤ dstSize ∧
      t = runDecode v fi s.header s) := by
  cases hp : s.phase with
  | unparsed =>
    rw [decodePlane_of_unparsed hp] at h
    cases h
    exact .inl ⟨_, rfl⟩
  | parsed =>
    rw [decodePlane_of_parsed ⟨hp, rfl⟩] at h
    split_ifs at h with hfi hw hsize <;> cases h
    · exact .inl ⟨_, rfl⟩
    · exact .inl ⟨_, rfl⟩
    · exact .inr ⟨rfl, not_not.1 hw, Nat.not_lt.1 hsize, rfl⟩

/-- Rows that can be read are stored inside the plane, and `DST` stays in canonical form. -/
theorem wf_dstAfterRows {v : Variant} {fi : Word32} {h : Header} {src : List Byte} {done : Nat}
    {m : Memory} (hm : Memory.wf m) (hw : h.width.toNat % 4 = 0) (hsize : planeBytes v h ≤ dstSize)
    (hrows : RowsReadable fi h src done) : Memory.wf (dstAfterRows v fi h src done m) := by
  obtain ⟨hd, hrows⟩ := hrows
  refine wf_storeRows v _ _ _ hw done 0 m hm (fun k hk => ?_) (le_trans ?_ hsize)
  · rw [Nat.zero_add]
    exact length_readRow (hrows k hk)
  · rw [Nat.zero_add, planeBytes, mul_assoc]
    exact Nat.mul_le_mul_right _ hd

/-- Once all rows are stored no byte of the plane is unspecified (R164). -/
theorem isSome_read_dstAfterRows {v : Variant} {fi : Word32} {h : Header} {src : List Byte}
    {m : Memory} {a : Nat} (hw : h.width.toNat % 4 = 0)
    (hrows : RowsReadable fi h src h.height.toNat) (ha : a < planeBytes v h) :
    (Memory.read (dstAfterRows v fi h src h.height.toNat m) a).isSome = true := by
  rw [planeBytes, mul_assoc] at ha
  have hlen : ∀ k, k < h.height.toNat →
      (readRow (frameOffset fi h.height h.width) h.width.toNat src k).length =
        rowBytes h.width.toNat := fun k hk => length_readRow (hrows.2 k hk)
  have hpos : 0 < h.width.toNat * v.bps := by
    by_contra hzero
    rw [Nat.eq_zero_of_not_pos hzero, Nat.mul_zero] at ha
    exact Nat.not_lt_zero _ ha
  have hrow := length_unpackRow_of_width v hw (hlen _ (Nat.div_lt_of_lt_mul (Nat.mul_comm _ _ ▸ ha)))
  rw [read_storeRows v _ _ _ hw _ 0 m a fun k hk => by rw [Nat.zero_add]; exact hlen k hk,
    if_pos ⟨by rw [Nat.zero_mul]; exact Nat.zero_le a, by rwa [Nat.zero_add]⟩,
    List.getElem?_eq_getElem (hrow.symm ▸ Nat.mod_lt _ hpos)]
  rfl

/-- A decode keeps `DST` from the plane's end on: what is listed there, and the draws made for what is not
(R164, R167). -/
theorem decodePlane_dst_above {v : Variant} {fi : Word32} {s t : State} {h : Header} {a : Nat}
    (ht : decodePlane v fi s = .next t) (hh : s.HoldsHeader h) (ha : planeBytes v h ≤ a) :
    Memory.read t.dst a = Memory.read s.dst a ∧ t.drawOf a = s.drawOf a := by
  obtain ⟨-, rfl⟩ := hh
  rcases decodePlane_cases ht with ⟨e, rfl⟩ | ⟨-, hw, -, rfl⟩
  · exact ⟨rfl, rfl⟩
  · obtain ⟨done, ⟨hd, hrows⟩, ⟨-, hdst, hspoils, -⟩ | ⟨hdst, hspoils, -⟩⟩ :=
      runDecode_dst_cases v fi s.header s
    · rw [hdst, State.drawOf, hspoils]
      exact ⟨read_storeRows_above s.dst hw hd hrows ha, rfl⟩
    · rw [hdst, State.drawOf, hspoils, Memory.read_forgetBelow, if_neg (Nat.not_lt.2 ha)]
      exact ⟨read_storeRows_above s.dst hw hd hrows ha, drawOf_noteSpoil_of_le ha⟩

/-! ## The invariant -/

/-- The invariant speaks of eight fields: a state that agrees in seven of them, with a completion code of
R181 in `ERR`, meets it too. -/
theorem State.Inv.transfer {s t : State} (hs : s.Inv) (herr : t.err.toNat ≤ 8)
    (hdst : t.dst = s.dst) (hsrc : t.src = s.src) (hrow : t.rowBuf = s.rowBuf)
    (hphase : t.phase = s.phase) (hheader : t.header = s.header) (hvalid : t.dstValid = s.dstValid)
    (hv : t.dstV = s.dstV) : t.Inv where
  dst_wf := hdst ▸ hs.dst_wf
  src_short := hsrc ▸ hs.src_short
  err_code := herr
  rowBuf_empty := hrow ▸ hs.rowBuf_empty
  header_of_src := by rw [hphase, hheader, hsrc]; exact hs.header_of_src
  plane_specified := by rw [hvalid, hphase, hheader, hv, hdst]; exact hs.plane_specified

theorem State.Inv.raise {s : State} (hs : s.Inv) (e : ErrorKind) : (raise e s).Inv :=
  hs.transfer e.code_le rfl rfl rfl rfl rfl rfl rfl

theorem State.Inv.withHost {s : State} (hs : s.Inv) (events : List HostEvent) :
    (s.withHost events).Inv :=
  hs.transfer hs.err_code rfl rfl rfl rfl rfl rfl rfl

/-- The two checks of `PARSE` are the bounds of R39. -/
theorem legal_of_parse_checks {h : Header} (hmagic : h.magic = formatMagic)
    (hdim : h.dimensionsLegal = true) : h.Legal := by
  simp only [Header.dimensionsLegal, Bool.and_eq_true, decide_eq_true_eq] at hdim
  obtain ⟨⟨hfc, hh⟩, hw⟩ := hdim
  exact ⟨hmagic, hfc, hh, hw⟩

theorem execParse_keeps_inv {s t : State} (hs : s.Inv) (h : execParse s = .next t) : t.Inv := by
  obtain ⟨hvalid, hv, -, hdst, hrow, -, hsrc, -, -, hcase⟩ := execParse_effects h
  rcases hcase with ⟨herr, -, hp, hlen, hmagic, hdim, hparsed, hheader⟩ | ⟨⟨hp, hh⟩, hcode⟩
  · exact
      { dst_wf := hdst ▸ hs.dst_wf
        src_short := hsrc ▸ hs.src_short
        err_code := by rw [herr]; decide
        rowBuf_empty := hrow ▸ hs.rowBuf_empty
        header_of_src := fun _ => by
          rw [hheader, hsrc]
          exact ⟨legal_of_parse_checks hmagic hdim, hlen, rfl⟩
        plane_specified := fun hd => by
          -- a plane was published in phase `PARSED` only
          obtain ⟨hp', -⟩ := hs.plane_specified (hvalid ▸ hd)
          rw [hp] at hp'
          cases hp' }
  · refine hs.transfer ?_ hdst hsrc hrow hp hh hvalid hv
    rcases hcode with ⟨h, -⟩ | ⟨h | h, -⟩ | h | h <;> rw [h] <;> decide

theorem decodePlane_keeps_inv {v : Variant} {fi : Word32} {s t : State} (hs : s.Inv)
    (h : decodePlane v fi s = .next t) : t.Inv := by
  rcases decodePlane_cases h with ⟨e, rfl⟩ | ⟨hp, hw, hsize, ht⟩
  · exact hs.raise e
  obtain ⟨hphase, hheader, -, hsrc, -, -, hend⟩ := decodePlane_effects h
  obtain ⟨done, hrows, hdst⟩ := runDecode_dst_cases v fi s.header s
  rw [← ht] at hdst
  have hstored := wf_dstAfterRows hs.dst_wf hw hsize hrows
  refine
    { dst_wf := ?_
      src_short := hsrc ▸ hs.src_short
      err_code := ?_
      rowBuf_empty := ?_
      header_of_src := by rw [hphase, hheader, hsrc]; exact hs.header_of_src
      plane_specified := fun hd => ⟨hphase.trans hp, hheader ▸ hw, fun a ha => ?_⟩ }
  · rcases hdst with ⟨-, hdst, -⟩ | ⟨hdst, -⟩ <;> rw [hdst]
    · exact hstored
    · exact Memory.wf_forgetBelow _ _ hstored
  · rcases hend with ⟨h | h | h, -⟩ | ⟨-, ⟨h, -⟩ | ⟨h | h, -⟩⟩ <;> rw [h] <;> decide
  · rcases hend with ⟨-, hframe⟩ | ⟨hrow, -⟩
    · rw [hframe]
      exact hs.rowBuf_empty
    · exact hrow
  · rcases hdst with ⟨rfl, hdst, -, hv⟩ | ⟨-, -, hinvalid⟩
    · rw [hv, hheader] at ha
      rw [hdst]
      exact isSome_read_dstAfterRows hw hrows ha
    · rw [hinvalid] at hd
      cases hd

theorem exec_result_keeps_inv {i : Instr} {s t : State} (hs : s.Inv) (hi : IsResultCommand i)
    (h : exec i s = .next t) : t.Inv := by
  obtain ⟨ht, hcode⟩ := exec_result_effects hi h
  have herr : t.err.toNat ≤ 8 := by
    rcases hcode with ⟨h, -⟩ | ⟨-, h | h | h | h⟩ <;> rw [h] <;> decide
  rw [ht]
  exact hs.transfer herr rfl rfl rfl rfl rfl rfl rfl

theorem exec_keeps_inv {i : Instr} {s t : State} (hs : s.Inv) (h : exec i s = .next t) : t.Inv := by
  rcases instr_cases i with rfl | ⟨v, fi, rfl⟩ | hi
  · exact execParse_keeps_inv hs h
  · rw [exec_decodeInstr] at h
    exact decodePlane_keeps_inv hs h
  · exact exec_result_keeps_inv hs hi h

/-- After a reset the block holds no header and no plane, whatever parameters are bound (R37). -/
theorem resetBlock_inv {src : List Byte} (hlen : src.length < srcLimit) (rel : Bool) (s : State) :
    (resetBlock src rel s).Inv where
  dst_wf := ⟨List.Pairwise.nil, fun _ hc => absurd hc List.not_mem_nil⟩
  src_short := hlen
  err_code := Nat.zero_le 8
  rowBuf_empty := rfl
  header_of_src := fun hp => by cases hp
  plane_specified := fun hd => by cases hd

/-- The host's write of a byte keeps the invariant: it makes no byte unspecified (R66). -/
theorem memWrite_byte_keeps_inv {s : State} (hs : s.Inv) (addr : BitVec 33) (b : Byte) :
    (memWrite addr.toNat [b] s).Inv where
  dst_wf := Memory.wf_write _ _ _ hs.dst_wf addr.isLt
  src_short := hs.src_short
  err_code := hs.err_code
  rowBuf_empty := hs.rowBuf_empty
  header_of_src := hs.header_of_src
  plane_specified := fun hd => by
    obtain ⟨hp, hw, hknown⟩ := hs.plane_specified hd
    refine ⟨hp, hw, fun a ha => ?_⟩
    rw [memWrite, State.withDst_dst, Memory.store_cons, Memory.store_nil, Memory.read_write]
    split
    · rfl
    · exact hknown a ha

end Sys2Proof.Machine

/-! ## The statements -/

namespace Sys2Proof.Proofs

open Sys2Proof.Machine

/-- Settles O52, from `step_cases`: each of the five things a step can do keeps the invariant. -/
theorem stepKeepsInvariant : Obligations.StepKeepsInvariant := by
  intro s t hs h
  rcases step_cases h with ⟨-, rfl⟩ | ⟨rest, hrun | hillegal | hreset | hwrite⟩
  · exact hs
  · obtain ⟨cw, i, -, -, hexec⟩ := hrun
    exact exec_keeps_inv (hs.withHost rest) hexec
  · obtain ⟨cw, -, -, rfl⟩ := hillegal
    exact (hs.withHost rest).raise _
  · obtain ⟨src, rel, -, hlen, rfl⟩ := hreset
    exact resetBlock_inv hlen rel _
  · obtain ⟨addr, b, -, rfl⟩ := hwrite
    exact memWrite_byte_keeps_inv (hs.withHost rest) addr b

/-- Settles O25: `PARSE` keeps the list of known bytes and of spoils, so the host reads every byte as
before. -/
theorem parseFrame : Obligations.ParseFrame := by
  intro s t h
  obtain ⟨hvalid, hv, hres, hdst, hrow, hspoils, hsrc, hrel, hhost, hcase⟩ := execParse_effects h
  have hread : ∀ a, Memory.read t.dst a = Memory.read s.dst a := fun a => by rw [hdst]
  refine ⟨hvalid, hv, hres, hrow, hsrc, hrel, hhost, hspoils, hread,
    fun a => readDst_frame (hread _) hspoils, fun hchanged => ?_⟩
  rcases hcase with ⟨herr, -⟩ | ⟨⟨hp, hh⟩, -⟩
  · exact herr
  · exact absurd hchanged (by simp [hp, hh])

/-- Settles O28, from what a command for `RES` can do. -/
theorem sniffFrame : Obligations.SniffFrame := by
  intro s t h
  obtain ⟨ht, hres⟩ := exec_result_effects (.inl rfl) h
  have hkept : t.err ≠ 0 → t.res = s.res := fun hne => by
    rcases hres with ⟨herr, -⟩ | ⟨hkept, -⟩
    · exact absurd herr hne
    · exact hkept
  rw [ht]
  exact ⟨rfl, rfl, rfl, rfl, rfl, rfl, rfl, rfl, rfl, rfl, fun _ => rfl, hkept⟩

/-- Settles O33, from what `OFFSET`, `UNPK8` and `UNPK16` can do. -/
theorem offsetAndGroupFrame : Obligations.OffsetAndGroupFrame := by
  intro i hi s t h
  obtain ⟨ht, hres⟩ := exec_offset_or_group_effects hi h
  refine ⟨ht, fun a => by rw [ht], fun hne => ?_⟩
  rcases hres with ⟨herr, -⟩ | ⟨hkept, -⟩
  · exact absurd herr hne
  · exact hkept

/-- Settles O42: beside `DST` from `decodePlane_effects`, and for `DST` from `decodePlane_dst_above`. -/
theorem decodeFrame : Obligations.DecodeFrame := by
  intro s t v fi h
  rw [exec_decodeInstr] at h
  obtain ⟨hphase, hheader, hres, hsrc, hrel, hhost, hend⟩ := decodePlane_effects h
  refine ⟨hphase, hheader, hres, hsrc, hrel, hhost, fun hp a => ?_,
    fun hdr a hh ha => (decodePlane_dst_above h hh ha).1, fun hdr a hh ha => ?_, fun herr => ?_⟩
  · rw [decodePlane_of_unparsed hp] at h
    cases h
    rfl
  · obtain ⟨hread, hdraw⟩ := decodePlane_dst_above h hh ha
    exact readDst_congr hread hdraw
  · rcases hend with ⟨-, ht⟩ | ⟨-, hcode⟩
    · rw [ht]
      exact ⟨rfl, rfl, rfl, fun _ => rfl⟩
    · -- a decode past its checks ends with 0, 4 or 5
      exfalso
      rcases hcode with ⟨h₀, -⟩ | ⟨h₀ | h₀, -⟩ <;> rw [h₀] at herr <;> revert herr <;> decide

/-- Settles O49: under the bound of R39 the sum fits in 32 bits. -/
theorem rowBytesView : Obligations.RowBytesView := by
  intro s
  refine ⟨fun hp => readRegister_header_refused hp (by decide) (le_refl 9), fun h hs hh => ?_⟩
  have hw : h.width.toNat ≤ 65535 := by
    obtain ⟨⟨-, -, -, hw⟩, -⟩ := hs.header_of_src hh.1
    exact hh.2 ▸ hw
  refine ⟨_, readRegister_rowBytes hh, ?_⟩
  rw [rowBytesView_toNat hw]
  exact ⟨rfl, rowBytes_le hw⟩

/-- Settles O54: beside a reset only `PARSE` writes the phase or the header registers, and it does so in phase
`UNPARSED` only. -/
theorem onlyResetLeavesParsed : Obligations.OnlyResetLeavesParsed := by
  rintro s t h ⟨hp, hh⟩ hstep hleft
  rcases step_cases hstep with ⟨-, rfl⟩ | ⟨rest, hrun | hillegal | hreset | hwrite⟩
  · exact absurd ⟨hp, hh⟩ hleft
  · obtain ⟨cw, i, -, -, hexec⟩ := hrun
    rcases exec_phase_cases hexec with ⟨hp', hh'⟩ | ⟨-, hun, -⟩
    · exact absurd ⟨hp'.trans hp, hh'.trans hh⟩ hleft
    · cases hp.symm.trans hun
  · obtain ⟨cw, -, -, rfl⟩ := hillegal
    exact absurd ⟨hp, hh⟩ hleft
  · obtain ⟨src, rel, hhost, -⟩ := hreset
    exact ⟨src, rel, rest, hhost⟩
  · obtain ⟨addr, b, -, rfl⟩ := hwrite
    exact absurd ⟨hp, hh⟩ hleft

/-- Settles O55: a command that enters phase `PARSED` is a normal `PARSE`, and one word decodes to it. -/
theorem onlyParseEntersParsed : Obligations.OnlyParseEntersParsed := by
  intro s t hp hstep hentered
  have hnotKept : ¬ t.phase = s.phase := fun hkept => by
    rw [hp, hentered] at hkept
    cases hkept
  rcases step_cases hstep with ⟨-, rfl⟩ | ⟨rest, hrun | hillegal | hreset | hwrite⟩
  · exact absurd rfl hnotKept
  · obtain ⟨cw, i, hhost, hdecode, hexec⟩ := hrun
    rcases exec_phase_cases hexec with ⟨hkept, -⟩ | ⟨rfl, -, herr⟩
    · exact absurd hkept hnotKept
    · exact ⟨herr, rest, word_of_decode_parse hdecode ▸ hhost⟩
  · obtain ⟨cw, -, -, rfl⟩ := hillegal
    exact absurd rfl hnotKept
  · obtain ⟨src, rel, -, -, rfl⟩ := hreset
    cases hentered
  · obtain ⟨addr, b, -, rfl⟩ := hwrite
    exact absurd rfl hnotKept

/-- Settles O56: of what a step can do, only the reset event binds a parameter. -/
theorem onlyResetBindsSource : Obligations.OnlyResetBindsSource := by
  intro s t hstep
  rcases step_cases hstep with ⟨-, rfl⟩ | ⟨rest, hrun | hillegal | hreset | hwrite⟩
  · exact .inl ⟨rfl, rfl⟩
  · obtain ⟨cw, i, -, -, hexec⟩ := hrun
    obtain ⟨hsrc, hrel⟩ := exec_keeps_environment hexec
    exact .inl ⟨hsrc, hrel⟩
  · obtain ⟨cw, -, -, rfl⟩ := hillegal
    exact .inl ⟨rfl, rfl⟩
  · obtain ⟨src, rel, hhost, -, rfl⟩ := hreset
    exact .inr ⟨rest, hhost⟩
  · obtain ⟨addr, b, -, rfl⟩ := hwrite
    exact .inl ⟨rfl, rfl⟩

/-- Settles O57: the phase and header from `exec_phase_cases`, the other registers for each of the three
classes of commands. -/
theorem writersOfEachRegister : Obligations.WritersOfEachRegister := by
  intro i s t h
  refine ⟨fun hchanged => ?_, ?_⟩
  · rcases exec_phase_cases h with ⟨hp, hh⟩ | ⟨hi, -, herr⟩
    · exact absurd hchanged (by simp [hp, hh])
    · exact ⟨hi, herr⟩
  rcases instr_cases i with rfl | ⟨v, fi, rfl⟩ | hi
  · obtain ⟨hvalid, hv, hres, hdst, -⟩ := execParse_effects h
    exact ⟨fun _ => .inl rfl, fun hne => absurd hres hne, fun hne => by simp [hvalid, hv, hdst] at hne⟩
  · rw [exec_decodeInstr] at h
    obtain ⟨-, -, hres, -⟩ := decodePlane_effects h
    exact ⟨fun _ => .inr ⟨v, fi, rfl⟩, fun hne => absurd hres hne, fun _ => ⟨v, fi, rfl⟩⟩
  · obtain ⟨ht, hres⟩ := exec_result_effects hi h
    refine ⟨fun hne => absurd (by rw [ht]) hne, fun hne => ?_, fun hne => ?_⟩
    · rcases hres with ⟨herr, hwritten⟩ | ⟨hkept, -⟩
      · exact ⟨herr, hwritten, hi⟩
      · exact absurd hkept hne
    · rw [ht] at hne
      simp at hne

/-- Settles O1: the registers by evaluation of `State.reset`, the refusals from the read port's laws. -/
theorem resetStateValues : Obligations.ResetStateValues := by
  refine ⟨rfl, rfl, rfl, rfl, rfl, rfl, rfl, rfl, rfl, fun n h₁ h₂ => ?_, Memory.read_nil⟩
  rcases Nat.lt_or_eq_of_le h₂ with hlt | rfl
  · exact readRegister_header_refused rfl h₁ (Nat.le_of_lt_succ hlt)
  · exact readRegister_result_refused rfl

/-- Settles O3. -/
theorem idleStepChangesNothing : Obligations.IdleStepChangesNothing := by
  intro s hidle
  rw [step, hidle]

/-- Settles O4: the step takes the action, and the action is the command that the word decodes to. -/
theorem stepRunsDecodedCommand : Obligations.StepRunsDecodedCommand := by
  intro s cw rest i hhost hdecode
  rw [step, hhost]
  show takeCommand cw (s.withHost rest) = exec i (s.withHost rest)
  rw [takeCommand, hdecode]

/-- Settles O48: the value bit by bit, and a word below 8 has no bit from 3 on. -/
theorem statusRegisterLayout : Obligations.StatusRegisterLayout := by
  intro s
  have hvalue := statusWord_toNat s
  constructor
  · rw [hvalue]
    refine congrArg₂ (· + ·) (congrArg₂ (· + ·) ?_ (congrArg (2 * ·) ?_)) (congrArg (4 * ·) ?_)
    · cases s.phase <;> rfl
    · cases s.dstValid <;> rfl
    · cases s.dstV <;> rfl
  · have hlt : (statusWord s).toNat < 2 ^ 3 := by
      have := s.phase.bit.isLt
      have := s.dstV.bit.isLt
      have := s.dstValid.toNat_lt
      omega
    apply BitVec.eq_of_toNat_eq
    rw [BitVec.toNat_ushiftRight, Nat.shiftRight_eq_div_pow, Nat.div_eq_of_lt hlt]
    rfl

/-- Settles O50, register by register. -/
theorem readPortByNumber : Obligations.ReadPortByNumber := by
  intro s
  refine ⟨rfl, rfl, rfl, rfl, rfl, rfl, fun n hn => ?_, readRegister_result_refused,
    fun hw => readResult_eq_ok_iff.2 ⟨hw, rfl⟩,
    fun hp n h₁ h₂ => readRegister_header_refused hp h₁ h₂, ?_⟩
  · obtain ⟨k, rfl⟩ := Nat.exists_eq_add_of_le' hn
    rfl
  · rintro h ⟨hp, rfl⟩
    have hreads : ∀ f : Header → Word32, readHeader f s = .ok (.word32 (f s.header)) :=
      fun f => readHeader_eq_ok_iff.2 ⟨hp, rfl⟩
    exact ⟨hreads _, hreads _, hreads _, hreads _⟩

/-- Settles O51: `State.reset` is the block after the reset event that binds an empty stream, up to the
model's counters. -/
theorem invariantHoldsAtReset : Obligations.InvariantHoldsAtReset :=
  (resetBlock_inv (src := []) (by decide) true State.reset).transfer (Nat.zero_le 8) rfl rfl rfl rfl rfl
    rfl rfl

end Sys2Proof.Proofs

/-! # Proofs: the memories `SRC` and `DST` (spec/20_memory.md)

First the rules: the host's write of one byte of `DST` as a step and as an update of the state, the host's read
of a byte that is listed, and the single bytes that a read of `SRC` returns. Then the theorems that settle the
statements. -/

namespace Sys2Proof.Machine

/-! ## The host's write of a byte -/

theorem step_of_writeDst {s : State} {addr : BitVec 33} {b : Byte} {rest : List HostEvent}
    (h : s.host = .writeDst addr b :: rest) :
    step s = .next (memWrite addr.toNat [b] (s.withHost rest)) := by
  rw [step, h]
  rfl

/-- Storing a run of one byte is writing that byte. -/
theorem memWrite_byte (a : Nat) (b : Byte) (s : State) :
    memWrite a [b] s = s.withDst (Memory.write s.dst a b) := by
  rw [memWrite, Memory.store_cons, Memory.store_nil]

/-- A byte of `DST` that is listed is what the host reads, whatever was drawn for it (R35). -/
theorem readDst_of_known {addr : BitVec 33} {b : Byte} {s : State}
    (h : Memory.read s.dst addr.toNat = some b) : readDst addr s = b := by
  rw [readDst, h]

/-! ## The bytes that a read returns -/

/-- A served read of bytes that all exist: it returns `n` of them, and the byte at index `k` is the byte of
`SRC` at `addr + k` (R53). -/
theorem srcRead_bytes_of_serves {addr : Word64} {n : Nat} {s : State} (hn : n ≠ 0) (hserve : EnvServes s)
    (hlen : addr.toNat + n ≤ s.src.length) :
    ∃ bytes, srcRead addr n s = .ok bytes s.afterAnswer ∧ bytes.length = n ∧
      ∀ k, k < n → bytes[k]? = s.src[addr.toNat + k]? := by
  refine ⟨_, srcRead_of_bytes hn hserve hlen, ?_, fun k hk => ?_⟩
  · rw [List.length_take, List.length_drop]
    omega
  · rw [List.getElem?_take_of_lt hk, List.getElem?_drop]

/-- A read that returns bytes found them all in `SRC`, leaves the cursor behind them, and changes neither
memory (R53, R57). -/
theorem seekRead_ok_memories {addr : Word64} {n : Nat} {s t : State} {bytes : List Byte}
    (h : seekRead addr n s = .ok bytes t) :
    t.cur = addr + BitVec.ofNat 64 n ∧ (n = 0 ∨ addr.toNat + n ≤ s.src.length) ∧
      t.src = s.src ∧ t.dst = s.dst := by
  have hframe := seekRead_ok_frame h
  obtain ⟨u, hread, ht⟩ := seekRead_ok h
  obtain ⟨-, hin, -⟩ := srcRead_ok hread
  exact ⟨by rw [ht, State.withCursor_cur], hin, by rw [hframe], by rw [hframe]⟩

end Sys2Proof.Machine

/-! ## The statements -/

namespace Sys2Proof.Proofs

open Sys2Proof.Machine

/-- Settles O6: the next `DST` is the old one with one byte written, and `Memory.read_write` says how it reads
at that address and at every other. -/
theorem hostWritesDst : Obligations.HostWritesDst := by
  intro s addr b rest hhost
  refine ⟨Memory.write s.dst addr.toNat b, ?_, ?_, fun a ha => ?_⟩
  · rw [step_of_writeDst hhost, memWrite_byte]
    rfl
  · apply readDst_of_known
    rw [Memory.read_write, if_pos rfl]
  · rw [Memory.read_write, if_neg ha]

/-- Settles O47, outcome by outcome: no byte, served and long enough, served and short, failed, and what a read
that moves the cursor leaves. -/
theorem sourceReadOutcomes : Obligations.SourceReadOutcomes := by
  intro addr n s
  refine ⟨?_, fun hn hserve hlen => ?_, fun hn hserve hshort => ?_, fun hn hfail => ?_, fun bytes t h => ?_⟩
  · rintro rfl
    exact srcRead_zero addr s
  · exact srcRead_bytes_of_serves (Nat.one_le_iff_ne_zero.1 hn) hserve hlen
  · exact srcRead_of_short (Nat.one_le_iff_ne_zero.1 hn) hserve hshort
  · exact srcRead_of_fails (Nat.one_le_iff_ne_zero.1 hn) hfail
  · exact seekRead_ok_memories h

end Sys2Proof.Proofs

/-! # Proofs: the command word, its decoder and its encoder (spec/30_encoding.md)

The fields of R80 that the word of a command holds are said once, command by command (`HasFields`). The encoder
gives the word of those fields and the decoder accepts exactly it; the opcode map, the clauses of R85 and the
assembler are then held against the fields. The theorems that settle the statements come last. -/

namespace Sys2Proof.Machine

/-! ## The fields of a word

Two words are equal when their fields are, so an encoder's equation comes apart into one equation a field. -/

/-- A run of bits is an appended pair exactly when each part is its own run. -/
theorem extractLsb'_eq_append_iff {m n w : Nat} (x : BitVec m) (y : BitVec n) (z : BitVec w) (s : Nat) :
    z.extractLsb' s (m + n) = x ++ y ↔ z.extractLsb' (s + n) m = x ∧ z.extractLsb' s n = y := by
  rw [← BitVec.extractLsb'_append_extractLsb'_eq_extractLsb' (x := z) (Eq.refl (s + n))]
  constructor
  · intro h
    have hhigh := congrArg (BitVec.extractLsb' n m) h
    have hlow := congrArg (BitVec.extractLsb' 0 n) h
    rw [BitVec.extractLsb'_append_eq_left, BitVec.extractLsb'_append_eq_left] at hhigh
    rw [BitVec.extractLsb'_append_eq_right, BitVec.extractLsb'_append_eq_right] at hlow
    exact ⟨hhigh, hlow⟩
  · rintro ⟨rfl, rfl⟩
    rfl

/-- The fields of a word without operand (`PARSE`, `SNIFF`). -/
structure IsPlainWord (op : BitVec 4) (cw : CommandWord) : Prop where
  op : opField cw = op
  v : vField cw = 0
  rsv : rsvField cw = 0
  imm : immField cw = 0

/-- The fields of a word with a frame index. -/
structure IsFrameWord (op : BitVec 4) (v : BitVec 1) (fi : Word32) (cw : CommandWord) : Prop where
  op : opField cw = op
  v : vField cw = v
  rsv : rsvField cw = 0
  high : immHigh cw = 0
  index : frameIndexField cw = fi

/-- The fields of a word with a packed group. -/
structure IsGroupWord (v : BitVec 1) (b0 b1 b2 b3 b4 : Byte) (cw : CommandWord) : Prop where
  op : opField cw = 0x5
  v : vField cw = v
  rsv : rsvField cw = 0
  byte0 : groupByteField 0 cw = b0
  byte1 : groupByteField 1 cw = b1
  byte2 : groupByteField 2 cw = b2
  byte3 : groupByteField 3 cw = b3
  byte4 : groupByteField 4 cw = b4

/-- The fields that the word of a command holds (R82, R83). -/
def HasFields (cw : CommandWord) : Instr → Prop
  | .parse => IsPlainWord 0x1 cw
  | .sniff => IsPlainWord 0x2 cw
  | .offset fi => IsFrameWord 0x3 0 fi cw
  | .decode8 fi => IsFrameWord 0x4 0 fi cw
  | .decode16 fi => IsFrameWord 0x4 1 fi cw
  | .unpk8 b0 b1 b2 b3 b4 => IsGroupWord 0 b0 b1 b2 b3 b4 cw
  | .unpk16 b0 b1 b2 b3 b4 => IsGroupWord 1 b0 b1 b2 b3 b4 cw

theorem encodePlain_eq_append : ∀ op : BitVec 4,
    encodePlain op = op ++ (0 : BitVec 1) ++ (0 : BitVec 3) ++ (0 : BitVec 40) := by
  decide

theorem encodePlain_eq_iff {op : BitVec 4} {cw : CommandWord} :
    encodePlain op = cw ↔ IsPlainWord op cw := by
  have h := extractLsb'_eq_append_iff (op ++ (0 : BitVec 1) ++ (0 : BitVec 3)) (0 : BitVec 40) cw 0
  simp only [extractLsb'_eq_append_iff, BitVec.extractLsb'_eq_self] at h
  rw [encodePlain_eq_append]
  refine eq_comm.trans (h.trans ⟨?_, ?_⟩)
  · rintro ⟨⟨⟨hop, hv⟩, hrsv⟩, himm⟩
    exact ⟨hop, hv, hrsv, himm⟩
  · rintro ⟨hop, hv, hrsv, himm⟩
    exact ⟨⟨⟨hop, hv⟩, hrsv⟩, himm⟩

theorem encodeFrame_eq_iff {op : BitVec 4} {v : BitVec 1} {fi : Word32} {cw : CommandWord} :
    encodeFrame op v fi = cw ↔ IsFrameWord op v fi cw := by
  have h := extractLsb'_eq_append_iff (op ++ v ++ (0 : BitVec 3) ++ (0 : BitVec 8)) fi cw 0
  simp only [extractLsb'_eq_append_iff, BitVec.extractLsb'_eq_self] at h
  refine eq_comm.trans (h.trans ⟨?_, ?_⟩)
  · rintro ⟨⟨⟨⟨hop, hv⟩, hrsv⟩, hhigh⟩, hfi⟩
    exact ⟨hop, hv, hrsv, hhigh, hfi⟩
  · rintro ⟨hop, hv, hrsv, hhigh, hfi⟩
    exact ⟨⟨⟨⟨hop, hv⟩, hrsv⟩, hhigh⟩, hfi⟩

theorem encodeGroup_eq_iff {v : BitVec 1} {b0 b1 b2 b3 b4 : Byte} {cw : CommandWord} :
    encodeGroup v b0 b1 b2 b3 b4 = cw ↔ IsGroupWord v b0 b1 b2 b3 b4 cw := by
  have h := extractLsb'_eq_append_iff
    ((0x5 : BitVec 4) ++ v ++ (0 : BitVec 3) ++ b4 ++ b3 ++ b2 ++ b1) b0 cw 0
  simp only [extractLsb'_eq_append_iff, BitVec.extractLsb'_eq_self] at h
  refine eq_comm.trans (h.trans ⟨?_, ?_⟩)
  · rintro ⟨⟨⟨⟨⟨⟨⟨hop, hv⟩, hrsv⟩, h4⟩, h3⟩, h2⟩, h1⟩, h0⟩
    exact ⟨hop, hv, hrsv, h0, h1, h2, h3, h4⟩
  · rintro ⟨hop, hv, hrsv, h0, h1, h2, h3, h4⟩
    exact ⟨⟨⟨⟨⟨⟨⟨hop, hv⟩, hrsv⟩, h4⟩, h3⟩, h2⟩, h1⟩, h0⟩

/-- The encoder gives the one word that holds the command's fields. -/
theorem encode_eq_iff {i : Instr} {cw : CommandWord} : encode i = cw ↔ HasFields cw i := by
  cases i with
  | parse | sniff => exact encodePlain_eq_iff
  | offset | decode8 | decode16 => exact encodeFrame_eq_iff
  | unpk8 | unpk16 => exact encodeGroup_eq_iff

/-! ## The decoder -/

/-- A command with a frame index decodes only from a word with `imm[39:32]` zero (R85). -/
theorem immHigh_of_decodeFrame {mk : Word32 → Instr} {i : Instr} {cw : CommandWord}
    (h : decodeFrame mk cw = .ok i) : immHigh cw = 0 := by
  unfold decodeFrame at h
  split_ifs at h with hhigh
  exact not_not.1 hhigh

theorem bit_eq_one_of_ne_zero {v : BitVec 1} (h : v ≠ 0) : v = 1 := v.eq_zero_or_eq_one.resolve_left h

/-- A word that decodes holds the fields of the command it decodes to, branch by branch of the decoder. -/
theorem hasFields_of_decode {cw : CommandWord} {i : Instr} (h : decode cw = .ok i) : HasFields cw i := by
  unfold decode at h
  split_ifs at h with hrsv hop hop hop hv hop hv hop hv
  · obtain ⟨rfl, hv, himm⟩ := decodePlain_eq_ok h
    exact ⟨hop, hv, not_not.1 hrsv, himm⟩
  · obtain ⟨rfl, hv, himm⟩ := decodePlain_eq_ok h
    exact ⟨hop, hv, not_not.1 hrsv, himm⟩
  · obtain rfl := decodeFrame_eq_ok h
    exact ⟨hop, not_not.1 hv, not_not.1 hrsv, immHigh_of_decodeFrame h, rfl⟩
  · obtain rfl := decodeFrame_eq_ok h
    exact ⟨hop, hv, not_not.1 hrsv, immHigh_of_decodeFrame h, rfl⟩
  · obtain rfl := decodeFrame_eq_ok h
    exact ⟨hop, bit_eq_one_of_ne_zero hv, not_not.1 hrsv, immHigh_of_decodeFrame h, rfl⟩
  · cases h
    exact ⟨hop, hv, not_not.1 hrsv, rfl, rfl, rfl, rfl, rfl⟩
  · cases h
    exact ⟨hop, bit_eq_one_of_ne_zero hv, not_not.1 hrsv, rfl, rfl, rfl, rfl, rfl⟩

/-- From a word that holds the fields of a command, that command decodes. -/
theorem decode_of_hasFields {cw : CommandWord} {i : Instr} (h : HasFields cw i) : decode cw = .ok i := by
  cases i with
  | parse | sniff => simp [decode, decodePlain, h.op, h.v, h.rsv, h.imm]
  | offset | decode8 | decode16 => simp [decode, decodeFrame, h.op, h.v, h.rsv, h.high, h.index]
  | unpk8 | unpk16 =>
    simp [decode, decodeGroup, h.op, h.v, h.rsv, h.byte0, h.byte1, h.byte2, h.byte3, h.byte4]

theorem decode_eq_ok_iff {cw : CommandWord} {i : Instr} : decode cw = .ok i ↔ HasFields cw i :=
  ⟨hasFields_of_decode, decode_of_hasFields⟩

/-! ## Illegal words (R85) -/

/-- The operation codes that are left when R85 has refused the others. -/
theorem legal_opcode_cases : ∀ op : BitVec 4, ¬(op = 0x0 ∨ 0x6 ≤ op) →
    op = 0x1 ∨ op = 0x2 ∨ op = 0x3 ∨ op = 0x4 ∨ op = 0x5 := by
  decide

/-- A word that no clause of R85 refuses holds the fields of some command. -/
theorem exists_hasFields_of_legal {cw : CommandWord} (h : ¬IllegalWord cw) : ∃ i, HasFields cw i := by
  obtain ⟨hcode, hlegal⟩ := not_or.1 h
  obtain ⟨hrsv, hlegal⟩ := not_or.1 hlegal
  obtain ⟨hv, hlegal⟩ := not_or.1 hlegal
  obtain ⟨himm, hhigh⟩ := not_or.1 hlegal
  have hrsv := not_not.1 hrsv
  have hbit := (vField cw).eq_zero_or_eq_one
  rcases legal_opcode_cases _ hcode with hop | hop | hop | hop | hop
  · exact ⟨.parse, hop, hbit.resolve_right (fun h1 => hv ⟨.inl hop, h1⟩), hrsv,
      not_not.1 fun hne => himm ⟨.inl hop, hne⟩⟩
  · exact ⟨.sniff, hop, hbit.resolve_right (fun h1 => hv ⟨.inr (.inl hop), h1⟩), hrsv,
      not_not.1 fun hne => himm ⟨.inr hop, hne⟩⟩
  · exact ⟨.offset _, hop, hbit.resolve_right (fun h1 => hv ⟨.inr (.inr hop), h1⟩), hrsv,
      not_not.1 fun hne => hhigh ⟨.inl hop, hne⟩, rfl⟩
  · have hhigh := not_not.1 fun hne => hhigh ⟨.inr hop, hne⟩
    rcases hbit with h0 | h1
    · exact ⟨.decode8 _, hop, h0, hrsv, hhigh, rfl⟩
    · exact ⟨.decode16 _, hop, h1, hrsv, hhigh, rfl⟩
  · rcases hbit with h0 | h1
    · exact ⟨.unpk8 _ _ _ _ _, hop, h0, hrsv, rfl, rfl, rfl, rfl, rfl⟩
    · exact ⟨.unpk16 _ _ _ _ _, hop, h1, hrsv, rfl, rfl, rfl, rfl, rfl⟩

/-- No clause of R85 refuses a word that holds the fields of a command. -/
theorem legal_of_hasFields {cw : CommandWord} {i : Instr} (h : HasFields cw i) : ¬IllegalWord cw := by
  cases i with
  | parse | sniff => simp [IllegalWord, h.op, h.v, h.rsv, h.imm]
  | offset | decode8 | decode16 => simp [IllegalWord, h.op, h.v, h.rsv, h.high]
  | unpk8 | unpk16 => simp [IllegalWord, h.op, h.rsv]

theorem illegalWord_iff_forall_decode_ne {cw : CommandWord} :
    IllegalWord cw ↔ ∀ i, decode cw ≠ .ok i := by
  constructor
  · exact fun hill i hi => legal_of_hasFields (hasFields_of_decode hi) hill
  · intro hnone
    by_contra hlegal
    obtain ⟨i, hi⟩ := exists_hasFields_of_legal hlegal
    exact hnone i (decode_of_hasFields hi)

/-- A step that presents a word from which no command decodes completes it with `IllegalCommand` (R85). -/
theorem step_of_decode_ne_ok {s : State} {cw : CommandWord} {rest : List HostEvent}
    (hhost : s.host = .command cw :: rest) (hnone : ∀ i, decode cw ≠ .ok i) :
    step s = .next (raise (.illegalCommand cw) (s.withHost rest)) := by
  rw [step, hhost]
  show takeCommand cw (s.withHost rest) = _
  unfold takeCommand
  split
  · next i hi => exact absurd hi (hnone i)
  · rfl

/-! ## The opcode map (R82) -/

/-- Where the mask of a row is all ones, a word that selects the row has the row's bits. -/
theorem extractLsb'_of_and_eq {w s n : Nat} {cw mask pattern : BitVec w} (h : cw &&& mask = pattern)
    (hmask : mask.extractLsb' s n = BitVec.allOnes n) :
    cw.extractLsb' s n = pattern.extractLsb' s n := by
  rw [← h, BitVec.extractLsb'_and, hmask, BitVec.and_allOnes]

theorem eq_encodePlain_of_and {op : BitVec 4} {cw : CommandWord}
    (h : cw &&& 0xFFFFFFFFFFFF = encodePlain op) : encodePlain op = cw := by
  rw [← h]
  exact BitVec.and_allOnes

theorem isFrameWord_of_and {op : BitVec 4} {v : BitVec 1} {cw : CommandWord}
    (h : cw &&& 0xFFFF00000000 = encodeFrame op v 0) : IsFrameWord op v (frameIndexField cw) cw := by
  obtain ⟨hop, hv, hrsv, hhigh, -⟩ := encodeFrame_eq_iff.1 (Eq.refl (encodeFrame op v 0))
  exact ⟨(extractLsb'_of_and_eq h rfl).trans hop, (extractLsb'_of_and_eq h rfl).trans hv,
    (extractLsb'_of_and_eq h rfl).trans hrsv, (extractLsb'_of_and_eq h rfl).trans hhigh, rfl⟩

theorem isGroupWord_of_and {v : BitVec 1} {cw : CommandWord}
    (h : cw &&& 0xFF0000000000 = encodeGroup v 0 0 0 0 0) :
    IsGroupWord v (groupByteField 0 cw) (groupByteField 1 cw) (groupByteField 2 cw)
      (groupByteField 3 cw) (groupByteField 4 cw) cw := by
  obtain ⟨hop, hv, hrsv, -⟩ := encodeGroup_eq_iff.1 (Eq.refl (encodeGroup v 0 0 0 0 0))
  exact ⟨(extractLsb'_of_and_eq h rfl).trans hop, (extractLsb'_of_and_eq h rfl).trans hv,
    (extractLsb'_of_and_eq h rfl).trans hrsv, rfl, rfl, rfl, rfl, rfl⟩

/-- A word that selects a row holds the fields of a command of the row's mnemonic, row by row. -/
theorem exists_hasFields_of_selects {cw : CommandWord} {row : OpcodeRow} (hrow : row ∈ opcodeRows)
    (hsel : row.selects cw = true) : ∃ i, HasFields cw i ∧ i.line.mnemonic = row.mnemonic := by
  have h := of_decide_eq_true hsel
  simp only [opcodeRows, List.mem_cons, List.not_mem_nil, or_false] at hrow
  rcases hrow with rfl | rfl | rfl | rfl | rfl | rfl | rfl
  · exact ⟨.parse, encodePlain_eq_iff.1 (eq_encodePlain_of_and h), rfl⟩
  · exact ⟨.sniff, encodePlain_eq_iff.1 (eq_encodePlain_of_and h), rfl⟩
  · exact ⟨.offset _, isFrameWord_of_and h, rfl⟩
  · exact ⟨.decode8 _, isFrameWord_of_and h, rfl⟩
  · exact ⟨.decode16 _, isFrameWord_of_and h, rfl⟩
  · exact ⟨.unpk8 _ _ _ _ _, isGroupWord_of_and h, rfl⟩
  · exact ⟨.unpk16 _ _ _ _ _, isGroupWord_of_and h, rfl⟩

/-- The word of every command selects the row of its mnemonic. -/
theorem rowOfWord (i : Instr) : Laws.RowOfWord.Statement i := by
  cases i with
  | parse => exact Laws.RowOfWord.parse
  | sniff => exact Laws.RowOfWord.sniff
  | offset fi => exact Laws.RowOfWord.offset fi
  | decode8 fi => exact Laws.RowOfWord.decode8 fi
  | decode16 fi => exact Laws.RowOfWord.decode16 fi
  | unpk8 b0 b1 b2 b3 b4 => exact Laws.RowOfWord.unpk8 b0 b1 b2 b3 b4
  | unpk16 b0 b1 b2 b3 b4 => exact Laws.RowOfWord.unpk16 b0 b1 b2 b3 b4

/-- Each row is the one that is found for its mnemonic: the seven mnemonics are distinct. -/
theorem rowOf_mnemonic : ∀ row ∈ opcodeRows, Laws.RowOfWord.rowOf row.mnemonic = some row := by
  decide

theorem selects_encode {row : OpcodeRow} (hrow : row ∈ opcodeRows) {i : Instr}
    (hm : i.line.mnemonic = row.mnemonic) : row.selects (encode i) = true := by
  obtain ⟨found, hfound, hsel⟩ := rowOfWord i
  rw [hm, rowOf_mnemonic row hrow] at hfound
  cases hfound
  exact hsel

/-- A word selects a row exactly when it decodes to a command of the row's mnemonic. -/
theorem selects_iff_decode {cw : CommandWord} {row : OpcodeRow} (hrow : row ∈ opcodeRows) :
    row.selects cw = true ↔ ∃ i, decode cw = .ok i ∧ i.line.mnemonic = row.mnemonic := by
  simp only [decode_eq_ok_iff]
  constructor
  · exact exists_hasFields_of_selects hrow
  · rintro ⟨i, hi, hm⟩
    rw [← encode_eq_iff.2 hi]
    exact selects_encode hrow hm

/-! ## Transport (R81) -/

/-- The six bytes of a word carry that word. -/
theorem ofTransport_toTransport (cw : CommandWord) : ofTransport (toTransport cw) = some cw := by
  have h := extractLsb'_eq_append_iff (cw.extractLsb' 40 8 ++ cw.extractLsb' 32 8 ++
    cw.extractLsb' 24 8 ++ cw.extractLsb' 16 8 ++ cw.extractLsb' 8 8) (cw.extractLsb' 0 8) cw 0
  simp only [extractLsb'_eq_append_iff, BitVec.extractLsb'_eq_self, and_self, iff_true] at h
  exact congrArg some h.symm

theorem ofTransport_of_length_ne {bytes : List Byte} (h : bytes.length ≠ 6) : ofTransport bytes = none := by
  unfold ofTransport
  split
  · exact absurd rfl h
  · rfl

/-! ## The assembler (R88) -/

/-- The line of a command writes that command: no operand loses a bit as a number. -/
theorem lineInstr_line (i : Instr) : lineInstr i.line = some i := by
  cases i <;> simp [lineInstr, Instr.line]

theorem wellFormed_iff {l : AsmLine} : l.wellFormed = true ↔
    l.operands.length = l.mnemonic.operandCount ∧ ∀ n ∈ l.operands, n < l.mnemonic.operandBound := by
  simp [AsmLine.wellFormed]

/-- The command that a line writes holds its operand numbers modulo their bound. -/
theorem line_of_lineInstr {l : AsmLine} {i : Instr} (h : lineInstr l = some i) :
    i.line = ⟨l.mnemonic, l.operands.map (· % l.mnemonic.operandBound)⟩ := by
  unfold lineInstr at h
  split at h
  case h_8 => cases h
  all_goals
    next hm ho =>
    cases h
    rw [hm, ho]
    rfl

/-- A well-formed line that writes a command is that command's line: the modulus cuts no operand. -/
theorem line_of_lineInstr_of_wellFormed {l : AsmLine} {i : Instr} (hwf : l.wellFormed = true)
    (h : lineInstr l = some i) : i.line = l := by
  obtain ⟨-, hbound⟩ := wellFormed_iff.1 hwf
  have hkept : l.operands.map (· % l.mnemonic.operandBound) = l.operands := by
    conv_rhs => rw [← List.map_id l.operands]
    exact List.map_congr_left fun n hn => Nat.mod_eq_of_lt (hbound n hn)
  rw [line_of_lineInstr h, hkept]

theorem assembleLine_eq_some_iff {l : AsmLine} {cw : CommandWord} :
    assembleLine l = some cw ↔ ∃ i : Instr, i.line = l ∧ encode i = cw := by
  unfold assembleLine
  constructor
  · intro h
    split_ifs at h with hwf
    obtain ⟨i, hi, hcw⟩ := Option.map_eq_some_iff.1 h
    exact ⟨i, line_of_lineInstr_of_wellFormed hwf hi, hcw⟩
  · rintro ⟨i, rfl, rfl⟩
    rw [if_pos (show i.line.wellFormed = true from i.wellFormed_all), lineInstr_line]
    rfl

end Sys2Proof.Machine

/-! ## The statements -/

namespace Sys2Proof.Proofs

open Sys2Proof.Machine

/-- Settles O8: the word of a command holds its fields, and from them the command decodes. -/
theorem decodeOfEncode : Obligations.DecodeOfEncode :=
  fun _ => decode_of_hasFields (encode_eq_iff.1 rfl)

/-- Settles O5: the clauses against the decoder by the fields of the word, and the step by the decoder's
answer. -/
theorem illegalWordsComplete : Obligations.IllegalWordsComplete := by
  refine ⟨fun cw => illegalWord_iff_forall_decode_ne, fun s cw rest hhost hill => ?_, .inl (.inl rfl)⟩
  rw [step_of_decode_ne_ok hhost (illegalWord_iff_forall_decode_ne.1 hill)]
  rfl

/-- Settles O9: a word that decodes holds the fields of the command, and they determine the word. -/
theorem encodeOfDecode : Obligations.EncodeOfDecode :=
  fun _ _ h => encode_eq_iff.2 (hasFields_of_decode h)

/-- Settles O10: two rows that one word selects have the mnemonic of the one command it decodes to. -/
theorem decoderAgreesWithOpcodeMap : Obligations.DecoderAgreesWithOpcodeMap := by
  refine ⟨fun cw row hrow => selects_iff_decode hrow, fun cw row row' hrow hrow' hsel hsel' => ?_⟩
  obtain ⟨i, hi, hm⟩ := (selects_iff_decode hrow).1 hsel
  obtain ⟨j, hj, hm'⟩ := (selects_iff_decode hrow').1 hsel'
  obtain rfl : i = j := Except.ok.inj (hi.symm.trans hj)
  apply Option.some.inj
  rw [← rowOf_mnemonic row hrow, ← rowOf_mnemonic row' hrow', ← hm, ← hm']

/-- Settles O11, clause by clause. -/
theorem transportCarriesTheWord : Obligations.TransportCarriesTheWord := by
  refine ⟨fun cw k hk => ?_, fun cw => ?_, fun bytes hlen => ?_⟩
  · interval_cases k <;> rfl
  · rw [decodeBytes, ofTransport_toTransport]
  · rw [decodeBytes, ofTransport_of_length_ne hlen]

/-- Settles O12: the two checks of a line are what makes it the line of the command it writes. -/
theorem assemblyLineEncodesItsCommand : Obligations.AssemblyLineEncodesItsCommand :=
  fun _ _ => assembleLine_eq_some_iff

/-- Settles O7: each of the seven words is the one the encoder gives. -/
theorem sampleWordsDecode : Obligations.SampleWordsDecode :=
  ⟨decodeOfEncode .parse, decodeOfEncode .sniff, decodeOfEncode (.offset 2),
    decodeOfEncode (.decode8 0xFFFFFFFF), decodeOfEncode (.decode16 0),
    decodeOfEncode (.unpk8 0x00 0x00 0x00 0x00 0xAB),
    decodeOfEncode (.unpk16 0x01 0x02 0x03 0x04 0x05)⟩

end Sys2Proof.Proofs

/-! # Proofs: the header parser (spec/40_header_parser.md)

First the rules: the words of a header within the bytes read, a read from the start of `SRC`, the two checks of
`PARSE` as one case split on the header, and each command after a read that returned bytes or raised. Then the
theorems that settle the statements. -/

namespace Sys2Proof.Machine

/-! ## The words of the header -/

theorem byteAt_take {n i : Nat} (bytes : List Byte) (h : i < n) : byteAt (bytes.take n) i = byteAt bytes i := by
  simp only [byteAt, List.getD_eq_getElem?_getD, List.getElem?_take_of_lt h]

/-- A word depends on its own four bytes only (R51). -/
theorem wordAt_take {n o : Nat} (bytes : List Byte) (h : o + 4 ≤ n) :
    wordAt (bytes.take n) o = wordAt bytes o := by
  simp only [wordAt]
  rw [byteAt_take, byteAt_take, byteAt_take, byteAt_take] <;> omega

/-- A header lies within the first 16 bytes (R90). -/
theorem headerOf_take (bytes : List Byte) : headerOf (bytes.take 16) = headerOf bytes := by
  simp only [headerOf]
  rw [wordAt_take, wordAt_take, wordAt_take, wordAt_take] <;> omega

/-! ## Reads from the start of `SRC` -/

theorem srcRead_start_of_bytes {n : Nat} {s : State} (hn : n ≠ 0) (hserve : EnvServes s)
    (hlen : n ≤ s.src.length) : srcRead 0 n s = .ok (s.src.take n) s.afterAnswer :=
  srcRead_of_bytes hn hserve (by simpa using hlen)

theorem srcRead_start_of_short {n : Nat} {s : State} (hn : n ≠ 0) (hserve : EnvServes s)
    (hlen : s.src.length < n) : srcRead 0 n s = .raised .shortRead s.afterAnswer :=
  srcRead_of_short hn hserve (by simpa using hlen)

/-! ## The checks of `PARSE` -/

/-- The bounds of R39 are the two checks of `PARSE`: the converse of `legal_of_parse_checks`. -/
theorem dimensionsLegal_of_legal {h : Header} (hl : h.Legal) : h.dimensionsLegal = true := by
  obtain ⟨-, hfc, hh, hw⟩ := hl
  simp only [Header.dimensionsLegal, Bool.and_eq_true, decide_eq_true_eq]
  exact ⟨⟨hfc, hh⟩, hw⟩

/-- The magic is checked first (R113, R115). -/
theorem finishParse_of_wrong_magic {h : Header} (hm : h.magic ≠ formatMagic) (s : State) :
    finishParse h s = raise (.invalidMagic h.magic) s := by
  rw [finishParse, if_pos hm]

/-- A right magic number in a header that is not legal leaves the dimensions to blame (R114). -/
theorem finishParse_of_wrong_dimensions {h : Header} (hm : h.magic = formatMagic) (hl : ¬h.Legal)
    (s : State) :
    finishParse h s = raise (.invalidDimensions h.frameCount h.height h.width) s := by
  have hdim : h.dimensionsLegal = false :=
    Bool.eq_false_iff.2 fun hdim => hl (legal_of_parse_checks hm hdim)
  rw [finishParse, if_neg (not_not.2 hm), if_pos hdim]

/-- A legal header is latched (R110 lines 6 and 7). -/
theorem finishParse_of_legal {h : Header} (hl : h.Legal) (s : State) :
    finishParse h s = completeOk (s.latchHeader h) := by
  have hm : h.magic = formatMagic := hl.1
  rw [finishParse, if_neg (not_not.2 hm), if_neg (by simp [dimensionsLegal_of_legal hl])]

/-! ## The commands after their read -/

/-- `PARSE` after a served read of its 16 bytes: the checks are those of `finishParse`, with the cursor behind
the header (R57, R110). -/
theorem execParse_of_served {s : State} (hp : s.phase = .unparsed) (hlen : 16 ≤ s.src.length)
    (hserve : EnvServes s) :
    execParse s = .next (finishParse (headerOf s.src) (s.afterAnswer.withCursor 16)) := by
  rw [execParse_of_unparsed hp, headerLength,
    seekRead_of_ok (srcRead_start_of_bytes (by decide) hserve hlen), ← headerOf_take s.src]
  rfl

/-- `PARSE` after a read that raised: the cursor is a free value, whose draw is counted (R57, R116). -/
theorem execParse_of_raised {s : State} {e : ReadError} (hp : s.phase = .unparsed)
    (h : srcRead 0 16 s = .raised e s.afterAnswer) :
    execParse s = .next (raise e.kind
      (s.afterAnswer.withCursor (Config.curAfterFailure s.afterAnswer.draws)).countDraw) := by
  rw [execParse_of_unparsed hp, headerLength, seekRead_of_raised h]

/-- `SNIFF` after a served read of its 4 bytes (R118). -/
theorem execSniff_of_served {s : State} (hlen : 4 ≤ s.src.length) (hserve : EnvServes s) :
    execSniff s =
      .next (completeOk (s.afterAnswer.withResult (sniffResult (wordAt s.src 0)))) := by
  rw [execSniff, srcRead_start_of_bytes (by decide) hserve hlen, ← wordAt_take (o := 0) s.src (le_refl 4)]

/-- `SNIFF` after a read that raised (R119). -/
theorem execSniff_of_raised {s : State} {e : ReadError}
    (h : srcRead 0 4 s = .raised e s.afterAnswer) :
    execSniff s = .next (raise e.kind s.afterAnswer) := by
  rw [execSniff, h]

end Sys2Proof.Machine

/-! ## The statements -/

namespace Sys2Proof.Proofs

open Sys2Proof.Machine

/-- Settles O20: a legal header passes both checks of `finishParse`. -/
theorem parseLatchesHeader : Obligations.ParseLatchesHeader := by
  intro s hp hlen hserve hlegal
  rw [headerOf_take] at hlegal ⊢
  calc
    exec .parse s = .next (finishParse (headerOf s.src) (s.afterAnswer.withCursor 16)) :=
      execParse_of_served hp hlen hserve
    _ = .next (completeOk ((s.afterAnswer.withCursor 16).latchHeader (headerOf s.src))) := by
      rw [finishParse_of_legal hlegal]

/-- Settles O21: the check of the magic asks nothing of the dimensions. -/
theorem parseReportsBadMagicFirst : Obligations.ParseReportsBadMagicFirst := by
  intro s hp hlen hserve hmagic
  calc
    exec .parse s = .next (finishParse (headerOf s.src) (s.afterAnswer.withCursor 16)) :=
      execParse_of_served hp hlen hserve
    _ = .next (raise (.invalidMagic (wordAt s.src 0)) (s.afterAnswer.withCursor 16)) := by
      rw [finishParse_of_wrong_magic hmagic]
      rfl

/-- Settles O22: behind a right magic number the header is legal exactly when no dimension is above its
bound. -/
theorem parseReportsBadDimensions : Obligations.ParseReportsBadDimensions := by
  intro s hp hlen hserve hmagic
  have hexec : exec .parse s = .next (finishParse (headerOf s.src) (s.afterAnswer.withCursor 16)) :=
    execParse_of_served hp hlen hserve
  refine ⟨fun habove => ?_, fun hfc hheight hwidth => ?_⟩
  · have hillegal : ¬(headerOf s.src).Legal := fun ⟨_, hfc, hheight, hwidth⟩ => by
      rcases habove with h | h | h
      · exact absurd hfc (Nat.not_le.2 h)
      · exact absurd hheight (Nat.not_le.2 h)
      · exact absurd hwidth (Nat.not_le.2 h)
    rw [hexec, finishParse_of_wrong_dimensions hmagic hillegal]
    rfl
  · rw [hexec, finishParse_of_legal ⟨hmagic, hfc, hheight, hwidth⟩]
    exact ⟨_, rfl, rfl, rfl, rfl⟩

/-- Settles O24: the read raises in both cases, and its error is the completion. -/
theorem parseReadFailure : Obligations.ParseReadFailure := by
  intro s hp
  exact ⟨fun hserve hshort =>
      ⟨_, execParse_of_raised hp (srcRead_start_of_short (by decide) hserve hshort)⟩,
    fun hfail => ⟨_, execParse_of_raised hp (srcRead_of_fails (by decide) hfail)⟩⟩

/-- Settles O26: a served read of 4 bytes returns the first word of `SRC`, and `RES` says whether it is the magic. -/
theorem sniffResult : Obligations.SniffResult :=
  fun _ hlen hserve => execSniff_of_served hlen hserve

/-- Settles O27: the read raises in both cases, before `RES` is written. -/
theorem sniffReadFailure : Obligations.SniffReadFailure :=
  fun _ => ⟨fun hserve hshort =>
      execSniff_of_raised (srcRead_start_of_short (by decide) hserve hshort),
    fun hfail => execSniff_of_raised (srcRead_of_fails (by decide) hfail)⟩

/-- Settles O29: by the invariant the header registers are legal and stand at the start of `SRC`, so the first
word is the magic number. -/
theorem sniffConfirmsParsedHeader : Obligations.SniffConfirmsParsedHeader := by
  rintro s h hinv ⟨hp, -⟩ hserve
  obtain ⟨⟨hmagic, -⟩, hlen, hheader⟩ := hinv.header_of_src hp
  have hword : wordAt s.src 0 = 0x10101010 := by
    rw [hheader, headerOf_take] at hmagic
    exact hmagic
  refine ⟨_, sniffResult s (le_trans (by decide) hlen) hserve, rfl, ?_⟩
  rw [if_pos hword]

/-- Settles O23: the check of the phase comes before the read. -/
theorem secondParseIsIllegalState : Obligations.SecondParseIsIllegalState :=
  fun _ hp => execParse_of_parsed hp

end Sys2Proof.Proofs

/-! # Proofs: the frame indexer (spec/41_frame_indexer.md)

First the rules: `OFFSET` with its range check decided, and the offsets of unbounded integers, their largest value
and their step from one frame to the next. Then the theorems that settle the statements. -/

namespace Sys2Proof.Machine

/-! ## The command with its range check decided -/

/-- An index at or above the frame count raises, with both values in the error (R133). -/
theorem execOffset_of_outOfRange {s : State} {h : Header} {fi : Word32} (hp : s.HoldsHeader h)
    (hf : h.frameCount ≤ fi) :
    execOffset fi s = .next (raise (.outOfRange fi h.frameCount) s) := by
  rw [execOffset_of_parsed hp, if_pos hf]

/-- An index in range completes with the 64-bit offset, whatever the dimensions are (R130, R132). -/
theorem execOffset_of_inRange {s : State} {h : Header} {fi : Word32} (hp : s.HoldsHeader h)
    (hf : fi < h.frameCount) :
    execOffset fi s = .next (completeOk (s.withResult (frameOffset fi h.height h.width))) := by
  rw [execOffset_of_parsed hp, if_neg (BitVec.not_le.2 hf)]

/-! ## The offsets of unbounded integers -/

/-- The largest offset of a legal header is that of frame 1022 of 65535 rows of 81918 bytes (R132). -/
theorem frameStart_le {fi : Word32} {h : Header} (hl : h.Legal) (hf : fi < h.frameCount) :
    frameStart fi h ≤ 5486603044876 := by
  obtain ⟨-, hfc, hheight, hwidth⟩ := hl
  have hlast : fi.toNat ≤ 1022 := Nat.le_of_lt_succ (lt_of_lt_of_le hf hfc)
  calc
    frameStart fi h ≤ 16 + 1022 * 65535 * 81918 :=
      Nat.add_le_add_left (Nat.mul_le_mul (Nat.mul_le_mul hlast hheight) (rowBytes_le hwidth)) 16
    _ = 5486603044876 := rfl

/-- Frame `fj` starts where the frame before it ends (R62, R135). -/
theorem frameStart_of_succ {fi fj : Word32} (hj : fj.toNat = fi.toNat + 1) (h : Header) :
    frameStart fj h = frameStart fi h + h.height.toNat * rowBytes h.width.toNat := by
  rw [frameStart, frameStart, hj]
  ring

/-- The index after one below a frame count does not wrap. -/
theorem toNat_add_one_of_lt {fi n : Word32} (h : fi.toNat + 1 < n.toNat) :
    (fi + 1).toNat = fi.toNat + 1 :=
  BitVec.toNat_add_of_lt (lt_trans h n.isLt)

end Sys2Proof.Machine

/-! ## The statements -/

namespace Sys2Proof.Proofs

open Sys2Proof.Machine

/-- Settles O30: the 64-bit offset is `frameStart`, whose largest value for a legal header is known. -/
theorem offsetResult : Obligations.OffsetResult := by
  intro s h fi hp hl hf
  have hvalue : (frameOffset fi h.height h.width).toNat = frameStart fi h := frameOffset_toNat hl hf
  exact ⟨frameOffset fi h.height h.width, execOffset_of_inRange hp hf, hvalue,
    le_of_eq_of_le hvalue (frameStart_le hl hf)⟩

/-- Settles O32: both results are `frameStart`, and the next frame starts where this one ends. -/
theorem offsetIsLinear : Obligations.OffsetIsLinear := by
  intro s h fi hp hl hnext
  have hsucc : (fi + 1).toNat = fi.toNat + 1 := toNat_add_one_of_lt hnext
  have hf : fi < h.frameCount := Nat.lt_of_succ_lt hnext
  have hf' : fi + 1 < h.frameCount := by rwa [BitVec.lt_def, hsucc]
  refine ⟨_, _, frameOffset fi h.height h.width, frameOffset (fi + 1) h.height h.width,
    execOffset_of_inRange hp hf, rfl, execOffset_of_inRange hp hf', rfl, ?_⟩
  rw [frameOffset_toNat hl hf, frameOffset_toNat hl hf', frameStart_of_succ hsucc]

/-- Settles O31: the check of the phase comes before the check of the index, and each raises. -/
theorem offsetRefusals : Obligations.OffsetRefusals :=
  ⟨fun _ fi hp => execOffset_of_unparsed hp fi, fun _ _ _ hp hf => execOffset_of_outOfRange hp hf⟩

end Sys2Proof.Proofs

/-! # Proofs: the bit unpacker (spec/42_bit_unpacker.md)

A byte that the group functions join by shifts from two neighbouring bytes is a run of 8 bits of the group word. So
both functions are said once in terms of the four samples of the group word (`unpack16_eq`, `unpack8_eq`), and the
statements about lanes, truncation and loss are facts about one sample. The theorems that settle the statements
come last. -/

namespace Sys2Proof.Machine

/-! ## The group word, by its bytes and by its samples (R15, R52) -/

/-- A word is the group word of five bytes exactly when they are its bytes. -/
theorem groupWord_eq_iff {b0 b1 b2 b3 b4 : Byte} {w : BitVec 40} :
    groupWord b0 b1 b2 b3 b4 = w ↔
      w.extractLsb' 32 8 = b4 ∧ w.extractLsb' 24 8 = b3 ∧ w.extractLsb' 16 8 = b2 ∧
        w.extractLsb' 8 8 = b1 ∧ w.extractLsb' 0 8 = b0 := by
  have h := extractLsb'_eq_append_iff (b4 ++ b3 ++ b2 ++ b1) b0 w 0
  simp only [extractLsb'_eq_append_iff, BitVec.extractLsb'_eq_self, and_assoc] at h
  exact eq_comm.trans h

theorem groupWord_bytes (w : BitVec 40) :
    groupWord (w.extractLsb' 0 8) (w.extractLsb' 8 8) (w.extractLsb' 16 8) (w.extractLsb' 24 8)
      (w.extractLsb' 32 8) = w :=
  groupWord_eq_iff.2 ⟨rfl, rfl, rfl, rfl, rfl⟩

/-- A word is four joined samples exactly when they are its samples. -/
theorem samples_append_eq_iff {s0 s1 s2 s3 : BitVec 10} {w : BitVec 40} :
    s3 ++ s2 ++ s1 ++ s0 = w ↔
      sample w 3 = s3 ∧ sample w 2 = s2 ∧ sample w 1 = s1 ∧ sample w 0 = s0 := by
  have h := extractLsb'_eq_append_iff (s3 ++ s2 ++ s1) s0 w 0
  simp only [extractLsb'_eq_append_iff, BitVec.extractLsb'_eq_self, and_assoc] at h
  exact eq_comm.trans h

theorem samples_append (w : BitVec 40) :
    sample w 3 ++ sample w 2 ++ sample w 1 ++ sample w 0 = w :=
  samples_append_eq_iff.2 ⟨rfl, rfl, rfl, rfl⟩

theorem append_append_byte {m n : Nat} (x : BitVec m) (y : BitVec n) (b : Byte) :
    x ++ (y ++ b) = x ++ y ++ b :=
  BitVec.append_assoc'

theorem append_groupWord {n : Nat} (x : BitVec n) (b0 b1 b2 b3 b4 : Byte) :
    x ++ groupWord b0 b1 b2 b3 b4 = x ++ b4 ++ b3 ++ b2 ++ b1 ++ b0 := by
  simp only [groupWord, append_append_byte]

/-- The word of a group command is its opcode byte and the group word (R145, R146). -/
theorem encodeGroup_eq_append (v : BitVec 1) (b0 b1 b2 b3 b4 : Byte) :
    encodeGroup v b0 b1 b2 b3 b4 =
      ((0x5 : BitVec 4) ++ v ++ (0 : BitVec 3)) ++ groupWord b0 b1 b2 b3 b4 :=
  (append_groupWord _ b0 b1 b2 b3 b4).symm

/-! ## The bytes of one sample -/

/-- The low output byte of a sample in Variant 16. -/
def sampleLow (x : BitVec 10) : Byte := x.extractLsb' 0 8

/-- The high output byte of a sample in Variant 16: its top 2 bits. -/
def sampleHigh (x : BitVec 10) : Byte := (x.extractLsb' 8 2).setWidth 8

/-- The output byte of a sample in Variant 8: its top 8 bits. -/
def sampleTop (x : BitVec 10) : Byte := x.extractLsb' 2 8

/-- The two bytes of Variant 16 are the zero-extended sample (R143). -/
theorem sampleHigh_append_sampleLow (x : BitVec 10) : sampleHigh x ++ sampleLow x = x.setWidth 16 := by
  have hx : x.extractLsb' 8 2 ++ x.extractLsb' 0 8 = x :=
    BitVec.extractLsb'_append_extractLsb' (w := 2)
  have hwiden := BitVec.setWidth_append_of_eq (v' := 8) (x := x.extractLsb' 8 2)
    (y := x.extractLsb' 0 8) rfl
  rw [BitVec.setWidth_eq (x.extractLsb' 0 8), hx] at hwiden
  exact hwiden.symm

/-- The byte of Variant 8 is the sample without its 2 low bits (R144). -/
theorem setWidth_ushiftRight_two (x : BitVec 10) : (x >>> 2).setWidth 8 = sampleTop x :=
  BitVec.setWidth_ushiftRight_eq_extractLsb

/-- Zero-extending the sample first changes nothing. -/
theorem setWidth_setWidth_ushiftRight_two (x : BitVec 10) :
    (x.setWidth 16 >>> 2).setWidth 8 = sampleTop x := by
  rw [BitVec.setWidth_ushiftRight_eq_extractLsb, BitVec.extractLsb'_setWidth_of_le (by decide), sampleTop]

/-! ## The formulas as runs of bits -/

/-- A run of bits in a run of bits. -/
theorem extractLsb'_extractLsb' {w s n t m : Nat} (x : BitVec w) (h : t + m ≤ n) :
    (x.extractLsb' s n).extractLsb' t m = x.extractLsb' (s + t) m := by
  ext i hi
  simp [Nat.add_assoc, show t + i < n by omega]

/-- Two neighbouring bytes, joined by shifts that add up to 8, are a run of 8 bits of the word they stand in. -/
theorem ushiftRight_or_shiftLeft {w n m s t : Nat} (x : BitVec w) (ht : t = s + 8) (hm : n + m = 8) :
    x.extractLsb' s 8 >>> n ||| x.extractLsb' t 8 <<< m = x.extractLsb' (s + n) 8 := by
  ext i hi
  simp only [BitVec.getElem_or, BitVec.getElem_ushiftRight, BitVec.getElem_shiftLeft,
    BitVec.getLsbD_extractLsb', BitVec.getElem_extractLsb']
  by_cases hlow : i < m
  · simp [hlow, show n + i < 8 by omega, Nat.add_assoc]
  · simp [hlow, show ¬n + i < 8 by omega, show t + (i - m) = s + n + i by omega]

/-- The bits of a byte that R141 masks away before a shift are those that the shift drops. -/
theorem shift_of_masked : ∀ b : Byte,
    (b &&& 0xFC) >>> 2 = b >>> 2 ∧ (b &&& 0x03) <<< 6 = b <<< 6 ∧
      (b &&& 0xF0) >>> 4 = b >>> 4 ∧ (b &&& 0x0F) <<< 4 = b <<< 4 ∧
      (b &&& 0xC0) >>> 6 = b >>> 6 ∧ (b &&& 0x3F) <<< 2 = b <<< 2 := by
  decide

/-- In a byte joined from two, both masks can go. -/
theorem joined_of_masked (b c : Byte) :
    (b &&& 0xFC) >>> 2 ||| (c &&& 0x03) <<< 6 = b >>> 2 ||| c <<< 6 ∧
      (b &&& 0xF0) >>> 4 ||| (c &&& 0x0F) <<< 4 = b >>> 4 ||| c <<< 4 ∧
      (b &&& 0xC0) >>> 6 ||| (c &&& 0x3F) <<< 2 = b >>> 6 ||| c <<< 2 := by
  simp only [shift_of_masked, and_self]

/-- Each high byte of R141 is two bits of one byte of the group. -/
theorem two_bits_of_masked : ∀ b : Byte,
    b &&& 0x03 = (b.extractLsb' 0 2).setWidth 8 ∧ (b &&& 0x0C) >>> 2 = (b.extractLsb' 2 2).setWidth 8 ∧
      (b &&& 0x30) >>> 4 = (b.extractLsb' 4 2).setWidth 8 ∧
      (b &&& 0xC0) >>> 6 = (b.extractLsb' 6 2).setWidth 8 := by
  decide

theorem sampleLow_sample (w : BitVec 40) (k : Nat) :
    sampleLow (sample w k) = w.extractLsb' (10 * k) 8 :=
  extractLsb'_extractLsb' w (by decide)

theorem sampleHigh_sample (w : BitVec 40) (k : Nat) :
    sampleHigh (sample w k) = (w.extractLsb' (10 * k + 8) 2).setWidth 8 :=
  congrArg (BitVec.setWidth 8) (extractLsb'_extractLsb' w (by decide))

theorem sampleTop_sample (w : BitVec 40) (k : Nat) :
    sampleTop (sample w k) = w.extractLsb' (10 * k + 2) 8 :=
  extractLsb'_extractLsb' w (by decide)

/-! ## The group functions on the group word -/

/-- Byte by byte, `Unpack16` is the low and the high byte of each sample of the group word (R143). The joined
bytes come first, because a mask inside one is also the mask of a high byte. -/
theorem unpack16_eq {b0 b1 b2 b3 b4 : Byte} {w : BitVec 40} (hw : groupWord b0 b1 b2 b3 b4 = w) :
    unpack16 b0 b1 b2 b3 b4 =
      [sampleLow (sample w 0), sampleHigh (sample w 0), sampleLow (sample w 1), sampleHigh (sample w 1),
       sampleLow (sample w 2), sampleHigh (sample w 2), sampleLow (sample w 3), sampleHigh (sample w 3)] := by
  obtain ⟨rfl, rfl, rfl, rfl, rfl⟩ := groupWord_eq_iff.1 hw
  simp only [unpack16, joined_of_masked, ushiftRight_or_shiftLeft]
  simp only [two_bits_of_masked, extractLsb'_extractLsb', sampleLow_sample, sampleHigh_sample,
    Nat.reduceLeDiff, Nat.reduceAdd, Nat.reduceMul]

/-- Byte by byte, `Unpack8` is the top byte of each sample of the group word (R144). -/
theorem unpack8_eq {b0 b1 b2 b3 b4 : Byte} {w : BitVec 40} (hw : groupWord b0 b1 b2 b3 b4 = w) :
    unpack8 b0 b1 b2 b3 b4 =
      [sampleTop (sample w 0), sampleTop (sample w 1), sampleTop (sample w 2), sampleTop (sample w 3)] := by
  obtain ⟨rfl, rfl, rfl, rfl, rfl⟩ := groupWord_eq_iff.1 hw
  have hmask (b : Byte) : b &&& 0xFF = b := BitVec.and_allOnes
  simp only [sampleTop_sample, unpack8, hmask, ushiftRight_or_shiftLeft]

theorem getElem?_unpack16_low {b0 b1 b2 b3 b4 : Byte} {w : BitVec 40} {k : Nat}
    (hw : groupWord b0 b1 b2 b3 b4 = w) (hk : k < 4) :
    (unpack16 b0 b1 b2 b3 b4)[2 * k]? = some (sampleLow (sample w k)) := by
  rw [unpack16_eq hw]
  interval_cases k <;> rfl

theorem getElem?_unpack16_high {b0 b1 b2 b3 b4 : Byte} {w : BitVec 40} {k : Nat}
    (hw : groupWord b0 b1 b2 b3 b4 = w) (hk : k < 4) :
    (unpack16 b0 b1 b2 b3 b4)[2 * k + 1]? = some (sampleHigh (sample w k)) := by
  rw [unpack16_eq hw]
  interval_cases k <;> rfl

theorem getElem?_unpack8 {b0 b1 b2 b3 b4 : Byte} {w : BitVec 40} {k : Nat}
    (hw : groupWord b0 b1 b2 b3 b4 = w) (hk : k < 4) :
    (unpack8 b0 b1 b2 b3 b4)[k]? = some (sampleTop (sample w k)) := by
  rw [unpack8_eq hw]
  interval_cases k <;> rfl

/-- A sample is known from its two bytes. -/
theorem sample_eq_of_bytes_eq {x y : BitVec 10} (hlow : sampleLow x = sampleLow y)
    (hhigh : sampleHigh x = sampleHigh y) : x = y := by
  have h : x.setWidth 16 = y.setWidth 16 := by
    rw [← sampleHigh_append_sampleLow, ← sampleHigh_append_sampleLow, hlow, hhigh]
  have hback := congrArg (BitVec.setWidth 10) h
  rwa [BitVec.setWidth_setWidth_of_le _ (by decide), BitVec.setWidth_setWidth_of_le _ (by decide),
    BitVec.setWidth_eq, BitVec.setWidth_eq] at hback

/-- Two groups with the same `Unpack16` have the same group word (R143). -/
theorem groupWord_eq_of_unpack16_eq {b0 b1 b2 b3 b4 c0 c1 c2 c3 c4 : Byte}
    (h : unpack16 b0 b1 b2 b3 b4 = unpack16 c0 c1 c2 c3 c4) :
    groupWord b0 b1 b2 b3 b4 = groupWord c0 c1 c2 c3 c4 := by
  rw [unpack16_eq rfl, unpack16_eq rfl] at h
  simp only [List.cons.injEq, and_true] at h
  obtain ⟨hl0, hh0, hl1, hh1, hl2, hh2, hl3, hh3⟩ := h
  rw [← samples_append (groupWord b0 b1 b2 b3 b4), sample_eq_of_bytes_eq hl0 hh0,
    sample_eq_of_bytes_eq hl1 hh1, sample_eq_of_bytes_eq hl2 hh2, sample_eq_of_bytes_eq hl3 hh3,
    samples_append]

/-! ## The group commands -/

theorem exec_unpk16 (b0 b1 b2 b3 b4 : Byte) (s : State) :
    exec (.unpk16 b0 b1 b2 b3 b4) s =
      .next (completeOk (s.withResult (packResult (unpack16 b0 b1 b2 b3 b4)))) := rfl

theorem exec_unpk8 (b0 b1 b2 b3 b4 : Byte) (s : State) :
    exec (.unpk8 b0 b1 b2 b3 b4) s =
      .next (completeOk (s.withResult (packResult (unpack8 b0 b1 b2 b3 b4)))) := rfl

/-- Packing one more byte below those packed. -/
theorem packResult_cons_of_eq {n : Nat} {x : BitVec n} {rest : List Byte} (b : Byte)
    (h : packResult rest = x.setWidth 64) : packResult (b :: rest) = (x ++ b).setWidth 64 := by
  rw [packResult, h, BitVec.setWidth_append_eq_shiftLeft_setWidth_or, BitVec.or_comm]

theorem packResult_singleton (b : Byte) : packResult [b] = b.setWidth 64 := by
  simp [packResult]

theorem packResult_four (p0 p1 p2 p3 : Byte) :
    packResult [p0, p1, p2, p3] = (0 : Word32) ++ (p3 ++ p2 ++ p1 ++ p0 : Word32) := by
  rw [packResult_cons_of_eq p0 (packResult_cons_of_eq p1 (packResult_cons_of_eq p2
    (packResult_singleton p3)))]
  exact BitVec.setWidth_eq_append (by decide)

theorem packResult_eight (o0 o1 o2 o3 o4 o5 o6 o7 : Byte) :
    packResult [o0, o1, o2, o3, o4, o5, o6, o7] =
      (o7 ++ o6 ++ o5 ++ o4 ++ o3 ++ o2 ++ o1 ++ o0 : Word64) := by
  have h := packResult_cons_of_eq o4 (packResult_cons_of_eq o5 (packResult_cons_of_eq o6
    (packResult_singleton o7)))
  rw [packResult_cons_of_eq o0 (packResult_cons_of_eq o1 (packResult_cons_of_eq o2
    (packResult_cons_of_eq o3 h)))]
  exact BitVec.setWidth_eq _

/-! ## A row of whole groups (R147) -/

/-- Output byte `j` of group `g` is byte `j` of the unpacked group, group by group from the front. -/
theorem getElem?_unpackRow (v : Variant) {j : Nat} (hj : j < 4 * v.bps) :
    ∀ {n g : Nat} {row : List Byte}, row.length = 5 * n → g < n →
      (unpackRow v row)[4 * v.bps * g + j]? =
        (unpackGroup v (byteAt row (5 * g)) (byteAt row (5 * g + 1)) (byteAt row (5 * g + 2))
          (byteAt row (5 * g + 3)) (byteAt row (5 * g + 4)))[j]? := by
  intro n
  induction n with
  | zero => exact fun _ hg => absurd hg (Nat.not_lt_zero _)
  | succ n ih =>
    intro g row hrow hg
    obtain ⟨b0, b1, b2, b3, b4, rest, rfl, hrest⟩ := exists_group_of_length hrow
    rw [unpackRow_group]
    cases g with
    | zero =>
      rw [Nat.mul_zero, Nat.zero_add, List.getElem?_append_left (by rwa [length_unpackGroup])]
      rfl
    | succ g =>
      have hskip : 4 * v.bps * (g + 1) + j - 4 * v.bps = 4 * v.bps * g + j := by
        rw [Nat.mul_succ]; omega
      rw [List.getElem?_append_right (by rw [length_unpackGroup, Nat.mul_succ]; omega), length_unpackGroup,
        hskip, ih hrest (Nat.lt_of_succ_lt_succ hg)]
      rfl

end Sys2Proof.Machine

/-! ## The statements -/

namespace Sys2Proof.Proofs

open Sys2Proof.Machine

/-- Settles O15: the bytes of each lane are those of its sample, and the samples joined are the group word. -/
theorem unpack16IsTheBitStream : Obligations.Unpack16IsTheBitStream := by
  intro b0 b1 b2 b3 b4
  exact ⟨fun k hk => ⟨_, _, getElem?_unpack16_low rfl hk, getElem?_unpack16_high rfl hk,
    sampleHigh_append_sampleLow _⟩, (samples_append _).symm⟩

/-- Settles O16: a group's word, and so each of its bytes, is known from its samples; and four samples joined
are the group word of that word's bytes. -/
theorem unpack16LosesNothing : Obligations.Unpack16LosesNothing := by
  refine ⟨fun b0 b1 b2 b3 b4 c0 c1 c2 c3 c4 h => ?_, fun s0 s1 s2 s3 => ?_⟩
  · obtain ⟨rfl, rfl, rfl, rfl, rfl⟩ := groupWord_eq_iff.1 (groupWord_eq_of_unpack16_eq h)
    obtain ⟨h4, h3, h2, h1, h0⟩ := groupWord_eq_iff.1 (Eq.refl (groupWord c0 c1 c2 c3 c4))
    rw [h0, h1, h2, h3, h4]
  · obtain ⟨h3, h2, h1, h0⟩ := samples_append_eq_iff.1 (Eq.refl (s3 ++ s2 ++ s1 ++ s0))
    refine ⟨_, _, _, _, _, (unpack16_eq (groupWord_bytes (s3 ++ s2 ++ s1 ++ s0))).trans ?_⟩
    rw [h0, h1, h2, h3]
    rfl

/-- Settles O17: both are bytes of one sample, which fills 10 of the 16 bits. -/
theorem unpack8TruncatesUnpack16 : Obligations.Unpack8TruncatesUnpack16 := by
  intro b0 b1 b2 b3 b4 k hk
  refine ⟨_, _, _, getElem?_unpack16_low rfl hk, getElem?_unpack16_high rfl hk, getElem?_unpack8 rfl hk, ?_⟩
  rw [sampleHigh_append_sampleLow, setWidth_setWidth_ushiftRight_two]

/-- Settles O18: the bytes of a lane are functions of its sample alone. -/
theorem lanesDoNotInteract : Obligations.LanesDoNotInteract := by
  intro b0 b1 b2 b3 b4 c0 c1 c2 c3 c4 k hk hsample
  rw [getElem?_unpack16_low rfl hk, getElem?_unpack16_low rfl hk, getElem?_unpack16_high rfl hk,
    getElem?_unpack16_high rfl hk, getElem?_unpack8 rfl hk, getElem?_unpack8 rfl hk, hsample]
  exact ⟨rfl, rfl, rfl⟩

/-- Settles O13: the eight bytes packed into `RES` are the four zero-extended samples. -/
theorem unpk16Result : Obligations.Unpk16Result := by
  intro b0 b1 b2 b3 b4 s
  refine ⟨encodeGroup_eq_append 1 b0 b1 b2 b3 b4, _, _, _, _, _, _, _, _, unpack16_eq rfl, ?_, ?_⟩
  · rw [exec_unpk16, unpack16_eq rfl, packResult_eight]
    rfl
  · simp only [← sampleHigh_append_sampleLow, append_append_byte]

/-- Settles O14: the four bytes packed into `RES` are the top bytes of the samples, and the last is `b4`. -/
theorem unpk8Result : Obligations.Unpk8Result := by
  intro b0 b1 b2 b3 b4 s
  refine ⟨encodeGroup_eq_append 0 b0 b1 b2 b3 b4, _, _, _, _, rfl, rfl, fun k hk => ?_, ?_⟩
  · rw [setWidth_ushiftRight_two]
    exact getElem?_unpack8 rfl hk
  · rw [exec_unpk8, unpack8, packResult_four]
    rfl

/-- Settles O19: the length and each output byte, by induction on the number of groups. -/
theorem rowUnpacksGroupByGroup : Obligations.RowUnpacksGroupByGroup :=
  fun v n row hrow => ⟨length_unpackRow v n row hrow, fun _ _ hg hj => getElem?_unpackRow v hj hrow hg⟩

end Sys2Proof.Proofs

/-! # Proofs: the plane decode (spec/43_plane_decode.md)

First the rules: the checks of a decode, a plane without pixels, the row loop in an environment that is not
reliable, the two ways in which a decode past its checks ends (`Publishes`, `Disowns`), and the bytes of the
plane, each a part of its pixel. Then the theorems that settle the statements. -/

namespace Sys2Proof.Machine

/-! ## The checks -/

/-- An index at or above the frame count raises, with both values in the error (R165). -/
theorem decodePlane_of_outOfRange {s : State} {h : Header} {fi : Word32} (hp : s.HoldsHeader h)
    (hf : h.frameCount ≤ fi) (v : Variant) :
    decodePlane v fi s = .next (raise (.outOfRange fi h.frameCount) s) := by
  rw [decodePlane_of_parsed hp, if_pos hf]

/-- A row that does not end with a whole group is refused, whatever the height is (R166). -/
theorem decodePlane_of_oddWidth {s : State} {h : Header} {fi : Word32} (hp : s.HoldsHeader h)
    (hf : fi < h.frameCount) (hw : h.width.toNat % 4 ≠ 0) (v : Variant) :
    decodePlane v fi s = .next (raise (.unsupportedWidth h.width) s) := by
  rw [decodePlane_of_parsed hp, if_neg (BitVec.not_le.2 hf), if_pos hw]

/-- A decode of a legal header whose checks pass runs its rows: the plane fits in `DST` (R58). -/
theorem exec_decode_of_legal {s : State} {h : Header} {fi : Word32} (hc : DecodeChecksPass fi h s)
    (hl : h.Legal) (v : Variant) : exec (decodeInstr v fi) s = .next (runDecode v fi h s) := by
  rw [exec_decodeInstr, decodePlane_of_checks hc v (planeBytes_le_dstSize v hl)]

/-! ## The completion after the row loop -/

/-- A decode whose row loop ends normally publishes the plane (R163 line 6). -/
theorem runDecode_of_ok {v : Variant} {fi : Word32} {h : Header} {s t : State}
    (ht : decodeRows v (frameOffset fi h.height h.width) h.width.toNat h.height.toNat 0
      (beginDecode (frameOffset fi h.height h.width) s) = .ok () t) :
    runDecode v fi h s = completeOk ((t.withRowBuf []).publishPlane v) := by
  unfold runDecode
  dsimp only
  rw [ht]

/-- A decode whose row loop raises disowns the plane (R167). -/
theorem runDecode_of_raised {v : Variant} {fi : Word32} {h : Header} {s t : State} {e : ReadError}
    (ht : decodeRows v (frameOffset fi h.height h.width) h.width.toNat h.height.toNat 0
      (beginDecode (frameOffset fi h.height h.width) s) = .raised e t) :
    runDecode v fi h s = raise e.kind (spoilPlane (planeBytes v h) (t.withRowBuf [])) := by
  unfold runDecode
  dsimp only
  rw [ht]

/-! ## A plane without pixels (R168) -/

theorem planeBytes_of_noPixels {h : Header} (hz : h.height = 0 ∨ h.width = 0) (v : Variant) :
    planeBytes v h = 0 := by
  rcases hz with hz | hz <;> simp [planeBytes, hz]

theorem frameOffset_of_noPixels {h : Header} (hz : h.height = 0 ∨ h.width = 0) (fi : Word32) :
    frameOffset fi h.height h.width = 16 := by
  rcases hz with hz | hz <;> simp [frameOffset, hz, rowBytes]

/-- Reading and writing a row without bytes fills the row buffer with nothing, and no more, where the cursor
stands at the frame's offset already (R56, R57). -/
theorem decodeRows_succ_of_width_zero (v : Variant) {base : Word64} {s : State} (hcur : s.cur = base)
    (rows r : Nat) :
    decodeRows v base 0 (rows + 1) r s = decodeRows v base 0 rows (r + 1) (s.withRowBuf []) := by
  have hoff : rowOffset base 0 r + BitVec.ofNat 64 0 = s.cur := by
    simp [rowOffset, rowBytes, hcur]
  rw [decodeRows_succ, show rowBytes 0 = 0 from rfl, seekRead_of_ok (srcRead_zero _ _), hoff]
  dsimp only
  rw [writeRow_eq, State.withRowBuf_rowBuf, unpackRow_nil, Memory.store_nil]
  rfl

/-- A row loop without rows, or over rows without bytes, ends normally, and its only trace is in the row
buffer. -/
theorem decodeRows_of_noPixels (v : Variant) {base : Word64} {width rows : Nat}
    (hz : rows = 0 ∨ width = 0) (r : Nat) {s : State} (hcur : s.cur = base) :
    ∃ row, decodeRows v base width rows r s = .ok () (s.withRowBuf row) := by
  induction rows generalizing r s with
  | zero => exact ⟨s.rowBuf, rfl⟩
  | succ rows ih =>
    obtain rfl := hz.resolve_left (Nat.succ_ne_zero rows)
    obtain ⟨row, hrow⟩ := ih (.inr rfl) (r + 1) (s := s.withRowBuf []) hcur
    exact ⟨row, by rw [decodeRows_succ_of_width_zero v hcur, hrow]; rfl⟩

/-- A plane without pixels is published, with the cursor at the seek before the first row. -/
theorem runDecode_of_noPixels (v : Variant) (fi : Word32) {h : Header} (s : State)
    (hz : h.height = 0 ∨ h.width = 0) :
    runDecode v fi h s = completeOk (((beginDecode 16 s).withRowBuf []).publishPlane v) := by
  have hz' : h.height.toNat = 0 ∨ h.width.toNat = 0 := hz.imp (by simp [·]) (by simp [·])
  obtain ⟨row, hrow⟩ := decodeRows_of_noPixels v hz' 0 (State.withCursor_cur s.clearPlane 16)
  rw [← frameOffset_of_noPixels hz fi] at hrow ⊢
  rw [runDecode_of_ok hrow]
  rfl

/-! ## The row loop in an environment that is not reliable -/

/-- A row loop whose first rows end normally goes on with the others from the state they leave. -/
theorem decodeRows_add {v : Variant} {base : Word64} {width done r : Nat} {s t : State}
    (h : decodeRows v base width done r s = .ok () t) (rows : Nat) :
    decodeRows v base width (done + rows) r s = decodeRows v base width rows (r + done) t := by
  induction done generalizing r s with
  | zero =>
    cases h
    rw [Nat.zero_add, Nat.add_zero]
  | succ done ih =>
    rw [decodeRows_succ] at h
    rw [Nat.succ_add, decodeRows_succ]
    split at h
    · cases h
    · rw [ih h, Nat.add_right_comm, Nat.add_assoc]

/-- A row loop ends at the first row, of those that have bytes, whose read the environment fails (R55, R167). -/
theorem decodeRows_succ_of_failed (v : Variant) (base : Word64) {width : Nat} {s : State}
    (hn : rowBytes width ≠ 0) (hfail : EnvFails s) (rows r : Nat) :
    ∃ t, decodeRows v base width (rows + 1) r s = .raised .ioFailure t ∧
      t.ioAnswers = s.ioAnswers.tail := by
  rw [decodeRows_succ, seekRead_of_raised (srcRead_of_fails hn hfail),
    State.afterAnswer_of_unreliable hfail.1]
  exact ⟨_, rfl, rfl⟩

/-- A row loop that the environment serves `k` times and then fails ends there, and uses no later answer. -/
theorem decodeRows_of_failed (v : Variant) (base : Word64) {width rows k r : Nat} {s : State}
    {rest : List IOAnswer} (hn : rowBytes width ≠ 0) (hr : s.ioReliable = false)
    (ha : s.ioAnswers = List.replicate k .serve ++ .fail :: rest) (hk : k < rows)
    (hrows : ∀ j, j < k → RowInSrc base width s.src (r + j)) :
    ∃ t, decodeRows v base width rows r s = .raised .ioFailure t ∧ t.ioAnswers = rest := by
  obtain ⟨u, hserved, hua, -⟩ := decodeRows_of_served v base width (.fail :: rest) hn k r s hr ha hrows
  obtain ⟨hframe, -⟩ := decodeRows_ok v base width k r s u hserved
  have hfail : EnvFails u := ⟨by rw [hframe]; exact hr, by rw [State.nextAnswer, hua]⟩
  obtain ⟨t, ht, hta⟩ := decodeRows_succ_of_failed v base hn hfail (rows - k - 1) (r + k)
  refine ⟨t, ?_, by rw [hta, hua]; rfl⟩
  rw [← ht, ← decodeRows_add hserved]
  congr 1
  omega

/-- The rows of a frame before row `k` can be read when the stream holds the frame up to there. -/
theorem rowInSrc_of_le {fi : Word32} {h : Header} {src : List Byte} {k j : Nat} (hl : h.Legal)
    (hf : fi < h.frameCount) (hk : k ≤ h.height.toNat)
    (hlen : frameStart fi h + k * rowBytes h.width.toNat ≤ src.length) (hj : j < k) :
    RowInSrc (frameOffset fi h.height h.width) h.width.toNat src j := by
  have hend : (j + 1) * rowBytes h.width.toNat ≤ k * rowBytes h.width.toNat := Nat.mul_le_mul_right _ hj
  rw [Nat.succ_mul] at hend
  refine .inr ?_
  rw [rowOffset_toNat hl hf (by omega)]
  omega

/-! ## The two ends of a decode past its checks (R164, R167) -/

/-- `DST` holds the plane of frame `fi` of a stream: its rows are the unpacked packed rows (R164). -/
def HoldsPlane (v : Variant) (fi : Word32) (h : Header) (src : List Byte) (m : Memory) : Prop :=
  ∀ r k, r < h.height.toNat → k < h.width.toNat * v.bps →
    Memory.read m (r * (h.width.toNat * v.bps) + k) =
      (unpackRow v (packedRow src (frameStart fi h) h.width.toNat r))[k]?

/-- From state `s` the decode of frame `fi` ended normally in state `t` (R164). -/
structure Publishes (v : Variant) (fi : Word32) (h : Header) (s t : State) : Prop where
  /-- What has changed, and to what, beside `DST` and the environment's records. -/
  frame : t = { s with
    dst := t.dst, dstValid := true, dstV := v, rowBuf := []
    cur := BitVec.ofNat 64 (frameStart fi h + h.height.toNat * rowBytes h.width.toNat)
    ioAnswers := t.ioAnswers, draws := t.draws, err := 0, eInfo0 := 0, eInfo1 := 0, eInfo2 := 0 }
  inSrc : FrameInSrc fi h s
  plane : HoldsPlane v fi h s.src t.dst
  above : ∀ a, planeBytes v h ≤ a → Memory.read t.dst a = Memory.read s.dst a
  /-- A reliable environment is asked nothing. -/
  unasked : s.ioReliable = true → t.ioAnswers = s.ioAnswers ∧ t.draws = s.draws

/-- From state `s` the decode of frame `fi` ended in state `t` after a read that failed (R167). -/
structure Disowns (v : Variant) (fi : Word32) (h : Header) (s t : State) : Prop where
  /-- What has changed, and to what, beside `DST`, `CUR`, `ERR` and the records. -/
  frame : t = { s with
    dst := t.dst, dstSpoils := t.dstSpoils, dstValid := false, rowBuf := [], cur := t.cur
    ioAnswers := t.ioAnswers, draws := t.draws, err := t.err, eInfo0 := 0, eInfo1 := 0, eInfo2 := 0 }
  below : ∀ a, a < planeBytes v h → Memory.read t.dst a = none
  above : ∀ a, planeBytes v h ≤ a → Memory.read t.dst a = Memory.read s.dst a
  /-- `ShortRead` needs a frame that is cut off, `IOFailure` an environment that may fail a read. -/
  cause : t.err = 4 ∧ ¬FrameInSrc fi h s ∨ t.err = 5 ∧ s.ioReliable = false

theorem Disowns.err_ne_zero {v : Variant} {fi : Word32} {h : Header} {s t : State}
    (hd : Disowns v fi h s t) : t.err ≠ 0 := by
  rcases hd.cause with ⟨herr, -⟩ | ⟨herr, -⟩ <;> rw [herr] <;> decide

/-- A reliable environment fails no read, so only a frame that is cut off is disowned (R54). -/
theorem Disowns.shortRead_of_reliable {v : Variant} {fi : Word32} {h : Header} {s t : State}
    (hd : Disowns v fi h s t) (hrel : s.ioReliable = true) : t.err = 4 ∧ ¬FrameInSrc fi h s :=
  hd.cause.resolve_right fun ⟨_, hunrel⟩ => by rw [hrel] at hunrel; cases hunrel

theorem runDecode_publishes_or_disowns (v : Variant) {fi : Word32} {h : Header} {s : State}
    (hc : DecodeChecksPass fi h s) (hl : h.Legal) :
    Publishes v fi h s (runDecode v fi h s) ∨ Disowns v fi h s (runDecode v fi h s) := by
  obtain ⟨-, hf, hw⟩ := hc
  rcases runDecode_cases (v := v) (s := s) hl hf with
    ⟨u, hrun, hin, hunasked⟩ | ⟨e, u, done, hdone, hrun, hrows, hshort, hio⟩
  · refine .inl ⟨by rw [hrun], hin, fun r k hr hk => ?_, fun a ha => ?_, by rw [hrun]; exact hunasked⟩
    · rw [hrun]
      exact read_storeRows_plane s.dst hl hf hw hin hr hk
    · rw [hrun]
      exact read_storeRows_above s.dst hw (le_refl _) ((rows_inSrc_iff hl hf s).2 hin) ha
  · refine .inr ⟨by rw [hrun], fun a ha => ?_, fun a ha => ?_, ?_⟩
    · rw [hrun, Memory.read_forgetBelow, if_pos ha]
    · rw [hrun, Memory.read_forgetBelow, if_neg (Nat.not_lt.2 ha)]
      exact read_storeRows_above s.dst hw (le_of_lt hdone) hrows ha
    · rw [hrun]
      cases e with
      | shortRead => exact .inl ⟨rfl, hshort rfl⟩
      | ioFailure => exact .inr ⟨rfl, hio rfl⟩

/-- A decode that completes with `ERR = 0` has published its plane. -/
theorem publishes_of_normal {v : Variant} {fi : Word32} {h : Header} {s t : State}
    (hc : DecodeChecksPass fi h s) (hl : h.Legal) (hexec : exec (decodeInstr v fi) s = .next t)
    (herr : t.err = 0) : Publishes v fi h s t := by
  rw [exec_decode_of_legal hc hl] at hexec
  cases hexec
  exact (runDecode_publishes_or_disowns v hc hl).resolve_right fun hd => hd.err_ne_zero herr

/-- A decode in an unreliable environment that serves each of its row reads completes with `ERR = 0`, and has
used up one answer a row (R55, R164). -/
theorem runDecode_of_served (v : Variant) {fi : Word32} {h : Header} {s : State} {rest : List IOAnswer}
    (hc : DecodeChecksPass fi h s) (hl : h.Legal) (hr : s.ioReliable = false)
    (hn : rowBytes h.width.toNat ≠ 0)
    (ha : s.ioAnswers = List.replicate h.height.toNat .serve ++ rest) (hin : FrameInSrc fi h s) :
    (runDecode v fi h s).err = 0 ∧ (runDecode v fi h s).ioAnswers = rest ∧
      (runDecode v fi h s).draws = s.draws + h.height.toNat := by
  obtain ⟨-, hf, -⟩ := hc
  have hrows := (rows_inSrc_iff hl hf s).2 hin
  obtain ⟨t, ht, hta, htd⟩ := decodeRows_of_served v (frameOffset fi h.height h.width) h.width.toNat rest hn
    h.height.toNat 0 (beginDecode (frameOffset fi h.height h.width) s) hr ha
    fun k hk => by rw [Nat.zero_add]; exact hrows k hk
  rw [runDecode_of_ok ht]
  exact ⟨rfl, hta, htd⟩

/-- A decode whose row read `k` is the first that the environment fails completes with `ERR = 5`, and has used up
the answers up to that one (R55, R167). -/
theorem runDecode_of_failed (v : Variant) {fi : Word32} {h : Header} {s : State} {k : Nat}
    {rest : List IOAnswer} (hc : DecodeChecksPass fi h s) (hl : h.Legal) (hr : s.ioReliable = false)
    (hn : rowBytes h.width.toNat ≠ 0)
    (ha : s.ioAnswers = List.replicate k .serve ++ .fail :: rest) (hk : k < h.height.toNat)
    (hlen : frameStart fi h + k * rowBytes h.width.toNat ≤ s.src.length) :
    (runDecode v fi h s).err = 5 ∧ (runDecode v fi h s).ioAnswers = rest := by
  obtain ⟨-, hf, -⟩ := hc
  obtain ⟨t, ht, hta⟩ := decodeRows_of_failed v (frameOffset fi h.height h.width) (r := 0)
    (s := beginDecode (frameOffset fi h.height h.width) s) hn hr ha hk
    fun j hj => by rw [Nat.zero_add]; exact rowInSrc_of_le hl hf (le_of_lt hk) hlen hj
  rw [runDecode_of_raised ht]
  exact ⟨rfl, hta⟩

/-! ## The bytes of the plane -/

/-- Byte `j` of a sample in `DST`: its top 8 bits in Variant 8, its low or its high byte in Variant 16 (R64). -/
def sampleByte : Variant → Nat → BitVec 10 → Byte
  | .variant8, _, x => sampleTop x
  | .variant16, 0, x => sampleLow x
  | .variant16, _ + 1, x => sampleHigh x

theorem getElem?_unpackGroup (v : Variant) (b0 b1 b2 b3 b4 : Byte) {k j : Nat} (hk : k < 4)
    (hj : j < v.bps) :
    (unpackGroup v b0 b1 b2 b3 b4)[v.bps * k + j]? =
      some (sampleByte v j (sample (groupWord b0 b1 b2 b3 b4) k)) := by
  cases v with
  | variant8 =>
    obtain rfl : j = 0 := Nat.lt_one_iff.1 hj
    rw [show Variant.variant8.bps * k + 0 = k from Nat.one_mul k]
    exact getElem?_unpack8 rfl hk
  | variant16 =>
    cases j with
    | zero => exact getElem?_unpack16_low rfl hk
    | succ j =>
      obtain rfl : j = 0 := Nat.lt_one_iff.1 (Nat.lt_of_succ_lt_succ hj)
      exact getElem?_unpack16_high rfl hk

/-- A byte of a packed row is a byte of the stream (R62). -/
theorem byteAt_packedRow (src : List Byte) (start : Nat) {width r i : Nat} (hi : i < rowBytes width) :
    byteAt (packedRow src start width r) i = srcByte src (start + r * rowBytes width + i) := by
  simp only [byteAt, srcByte, packedRow, List.getD_eq_getElem?_getD, List.getElem?_take_of_lt hi,
    List.getElem?_drop]

/-- Byte `j` of column `c` of an unpacked row is byte `j` of the pixel (R52, R170): the column is lane `c mod 4`
of group `c / 4`. -/
theorem getElem?_unpackRow_packedRow (v : Variant) {src : List Byte} {start width r c j : Nat}
    (hw : width % 4 = 0) (hlen : (packedRow src start width r).length = rowBytes width) (hc : c < width)
    (hj : j < v.bps) :
    (unpackRow v (packedRow src start width r))[v.bps * c + j]? =
      some (sampleByte v j (pixel src start width r c)) := by
  have hrow := rowBytes_of_mod hw
  have hlane : c % 4 < 4 := Nat.mod_lt _ (by decide)
  have hgroup : c / 4 < width / 4 := by omega
  have hin : v.bps * (c % 4) + j < 4 * v.bps := by cases v <;> simp only [Variant.bps] at hj ⊢ <;> omega
  have hindex : v.bps * c + j = 4 * v.bps * (c / 4) + (v.bps * (c % 4) + j) := by
    cases v <;> simp only [Variant.bps] <;> omega
  rw [hindex, getElem?_unpackRow v hin (hlen.trans hrow) hgroup, getElem?_unpackGroup v _ _ _ _ _ hlane hj,
    byteAt_packedRow, byteAt_packedRow, byteAt_packedRow, byteAt_packedRow, byteAt_packedRow]
  · rfl
  all_goals omega

/-- The rows of a frame that lies in the stream have all their bytes. -/
theorem length_packedRow {fi : Word32} {h : Header} {s : State} {r : Nat} (hc : DecodeChecksPass fi h s)
    (hl : h.Legal) (hin : FrameInSrc fi h s) (hr : r < h.height.toNat) :
    (packedRow s.src (frameStart fi h) h.width.toNat r).length = rowBytes h.width.toNat := by
  obtain ⟨-, hf, -⟩ := hc
  rw [← readRow_eq_packedRow hl hf s.src (le_of_lt hr)]
  exact length_readRow ((rows_inSrc_iff hl hf s).2 hin r hr)

/-- After a normal decode byte `j` of pixel (`r`, `c`) stands at its address in `DST` (R64, R170). -/
theorem Publishes.read_pixel {v : Variant} {fi : Word32} {h : Header} {s t : State} {r c j : Nat}
    (hp : Publishes v fi h s t) (hc : DecodeChecksPass fi h s) (hl : h.Legal) (hr : r < h.height.toNat)
    (hcol : c < h.width.toNat) (hj : j < v.bps) :
    Memory.read t.dst (v.bps * (r * h.width.toNat + c) + j) =
      some (sampleByte v j (pixel s.src (frameStart fi h) h.width.toNat r c)) := by
  have hlen := length_packedRow hc hl hp.inSrc hr
  obtain ⟨-, -, hw⟩ := hc
  have hk : v.bps * c + j < h.width.toNat * v.bps :=
    calc
      v.bps * c + j < v.bps * (c + 1) := by rw [Nat.mul_succ]; omega
      _ ≤ h.width.toNat * v.bps := by rw [Nat.mul_comm]; exact Nat.mul_le_mul_right _ hcol
  have haddr : v.bps * (r * h.width.toNat + c) + j = r * (h.width.toNat * v.bps) + (v.bps * c + j) := by
    ring
  rw [haddr, hp.plane r _ hr hk, getElem?_unpackRow_packedRow v hw hlen hcol hj]

/-! ## Planes and frames -/

/-- A place in a grid of `m` rows of `n` has a row and a column. -/
theorem div_lt_and_mod_lt {a m n : Nat} (h : a < m * n) : a / n < m ∧ a % n < n := by
  have hn : 0 < n := Nat.pos_of_lt_mul_left h
  exact ⟨(Nat.div_lt_iff_lt_mul hn).2 h, Nat.mod_lt a hn⟩

/-- The plane of a frame fixes every byte of its range. -/
theorem HoldsPlane.read_eq {v : Variant} {fi : Word32} {h : Header} {src src' : List Byte}
    {m m' : Memory} (hm : HoldsPlane v fi h src m) (hm' : HoldsPlane v fi h src' m')
    (hrows : ∀ r, r < h.height.toNat → packedRow src (frameStart fi h) h.width.toNat r =
      packedRow src' (frameStart fi h) h.width.toNat r)
    {a : Nat} (ha : a < planeBytes v h) : Memory.read m a = Memory.read m' a := by
  rw [planeBytes, mul_assoc] at ha
  obtain ⟨hr, hk⟩ := div_lt_and_mod_lt ha
  have hread := hm _ _ hr hk
  have hread' := hm' _ _ hr hk
  rw [Nat.div_add_mod'] at hread hread'
  rw [hread, hread', hrows _ hr]

/-- A row is known from its own bytes of the stream. -/
theorem packedRow_congr {src src' : List Byte} {start width r : Nat}
    (hlen : (packedRow src start width r).length = rowBytes width)
    (hlen' : (packedRow src' start width r).length = rowBytes width)
    (hbytes : ∀ i, i < rowBytes width →
      srcByte src (start + r * rowBytes width + i) = srcByte src' (start + r * rowBytes width + i)) :
    packedRow src start width r = packedRow src' start width r := by
  refine List.ext_getElem (hlen.trans hlen'.symm) fun i hi hi' => ?_
  have hbyte := hbytes i (hlen ▸ hi)
  rw [← byteAt_packedRow src start (hlen ▸ hi), ← byteAt_packedRow src' start (hlen ▸ hi)] at hbyte
  rwa [byteAt, byteAt, List.getD_eq_getElem _ _ hi, List.getD_eq_getElem _ _ hi'] at hbyte

/-- A frame ends where the next one starts, or before a later one (R62). -/
theorem frameEnd_le_frameStart {fi fj : Word32} (hlt : fi < fj) (h : Header) :
    frameStart fi h + h.height.toNat * rowBytes h.width.toNat ≤ frameStart fj h := by
  have hsucc : fi.toNat + 1 ≤ fj.toNat := hlt
  calc
    frameStart fi h + h.height.toNat * rowBytes h.width.toNat
        = 16 + (fi.toNat + 1) * h.height.toNat * rowBytes h.width.toNat := by
      rw [frameStart]
      ring
    _ ≤ frameStart fj h :=
      Nat.add_le_add_left (Nat.mul_le_mul_right _ (Nat.mul_le_mul_right _ hsucc)) 16

end Sys2Proof.Machine

/-! ## The statements -/

namespace Sys2Proof.Proofs

open Sys2Proof.Machine

/-- Settles O41: no row has a byte to read or to write. -/
theorem emptyPlaneDecodes : Obligations.EmptyPlaneDecodes := by
  intro s h v fi hc hz
  have hfits : planeBytes v h ≤ dstSize := by
    rw [planeBytes_of_noPixels hz]
    exact Nat.zero_le _
  rw [exec_decodeInstr, decodePlane_of_checks hc v hfits, runDecode_of_noPixels v fi s hz]
  rfl

/-- Settles O35: the check of the width is the third, and a plane of width 0 completes normally. -/
theorem decodeRefusesOddWidths : Obligations.DecodeRefusesOddWidths := by
  intro s h v fi hp hf
  refine ⟨fun hw => ?_, fun hzero t ht => ?_⟩
  · rw [exec_decodeInstr, decodePlane_of_oddWidth hp hf hw]
    rfl
  · rw [emptyPlaneDecodes s h v fi ⟨hp, hf, by rw [hzero]; rfl⟩ (.inr hzero)] at ht
    cases ht
    show (0 : Word32) ≠ 6
    decide

/-- Settles O36: a reliable environment and a frame that lies in `SRC` leave no read to fail. -/
theorem decodePublishesPlane : Obligations.DecodePublishesPlane := by
  intro s h v fi hc hl hrel hin
  rcases runDecode_publishes_or_disowns v hc hl with hp | hd
  · obtain ⟨ha, hdraws⟩ := hp.unasked hrel
    refine ⟨_, ?_, hp.plane, hp.above⟩
    rw [exec_decode_of_legal hc hl, ← ha, ← hdraws]
    exact congrArg _ hp.frame
  · obtain ⟨-, hout⟩ := hd.shortRead_of_reliable hrel
    exact absurd hin hout

/-- Settles O60: the row loop says what is left of the answers, and a decode with `ERR = 0` has published its
plane. -/
theorem decodePublishesPlaneWhenServed : Obligations.DecodePublishesPlaneWhenServed := by
  intro s h v fi rest hc hl hrel hn ha hin
  obtain ⟨herr, hrest, hdraws⟩ :=
    runDecode_of_served v hc hl hrel (Nat.one_le_iff_ne_zero.1 hn) ha hin
  have hp := publishes_of_normal hc hl (exec_decode_of_legal hc hl v) herr
  refine ⟨_, ?_, hp.plane, hp.above⟩
  rw [exec_decode_of_legal hc hl, ← hdraws, ← hrest]
  exact congrArg _ hp.frame

/-- Settles O37: each byte of the plane is a part of its pixel. -/
theorem decodedPixelsAreStreamSlices : Obligations.DecodedPixelsAreStreamSlices := by
  intro s t h fi r c hc hl hr hcol
  refine ⟨fun hexec herr => ?_, fun hexec herr => ?_⟩
  · have hp : Publishes .variant8 fi h s t := publishes_of_normal hc hl hexec herr
    have htop := hp.read_pixel hc hl hr hcol (j := 0) (by decide)
    rwa [show Variant.variant8.bps = 1 from rfl, Nat.one_mul] at htop
  · have hp : Publishes .variant16 fi h s t := publishes_of_normal hc hl hexec herr
    exact ⟨hp.read_pixel hc hl hr hcol (j := 0) (by decide), hp.read_pixel hc hl hr hcol (j := 1) (by decide)⟩

/-- Settles O38, for each of the two ends of a decode. -/
theorem decodePublishesOrDisowns : Obligations.DecodePublishesOrDisowns := by
  intro s h v fi hc hl
  refine ⟨_, exec_decode_of_legal hc hl v, ?_⟩
  rcases runDecode_publishes_or_disowns v hc hl with hp | hd
  · have hframe := hp.frame
    generalize runDecode v fi h s = t at hp hframe
    refine ⟨?_, ?_, ?_, ?_, ?_, ?_, hp.above, .inl ⟨?_, ?_, ?_, hp.inSrc, hp.plane⟩⟩ <;> rw [hframe]
  · have hframe := hd.frame
    generalize runDecode v fi h s = t at hd hframe
    have hcode : t.err = 4 ∨ t.err = 5 := hd.cause.imp And.left And.left
    refine ⟨?_, ?_, ?_, ?_, ?_, ?_, hd.above, .inr ⟨hcode, ?_, ?_, hd.below⟩⟩ <;> rw [hframe]

/-- Settles O39: a frame that is not in `SRC` is not published, and a reliable environment fails no read. -/
theorem decodeOfTruncatedFrameIsShortRead : Obligations.DecodeOfTruncatedFrameIsShortRead := by
  intro s h v fi hc hl hrel hout
  refine ⟨_, exec_decode_of_legal hc hl v, ?_⟩
  rcases runDecode_publishes_or_disowns v hc hl with hp | hd
  · exact absurd hp.inSrc hout
  · obtain ⟨herr, -⟩ := hd.shortRead_of_reliable hrel
    exact ⟨herr, by rw [hd.frame]⟩

/-- Settles O40: the served rows are a row loop of their own, and the loop ends at the read behind them. -/
theorem decodeStopsAtFailedRow : Obligations.DecodeStopsAtFailedRow := by
  intro s h v fi k rest hc hl hrel ha hk hn hlen
  obtain ⟨herr, hrest⟩ :=
    runDecode_of_failed v hc hl hrel (Nat.one_le_iff_ne_zero.1 hn) ha hk hlen
  refine ⟨_, exec_decode_of_legal hc hl v, herr, ?_, hrest⟩
  rcases runDecode_publishes_or_disowns v hc hl with hp | hd
  · rw [hp.frame] at herr
    cases herr
  · rw [hd.frame]

/-- Settles O43: the bytes of both variants are parts of one pixel, of which the byte of Variant 8 leaves out
the 2 low bits. -/
theorem variantsAgree : Obligations.VariantsAgree := by
  intro s t u h fi n hc hl hn ht hterr hu huerr
  obtain ⟨hr, hcol⟩ := div_lt_and_mod_lt hn
  have htop := (decodedPixelsAreStreamSlices s t h fi _ _ hc hl hr hcol).1 ht hterr
  obtain ⟨hlow, hhigh⟩ := (decodedPixelsAreStreamSlices s u h fi _ _ hc hl hr hcol).2 hu huerr
  rw [Nat.div_add_mod'] at htop hlow hhigh
  refine ⟨_, _, _, htop, hlow, hhigh, ?_⟩
  have hwide := sampleHigh_append_sampleLow
    (pixel s.src (frameStart fi h) h.width.toNat (n / h.width.toNat) (n % h.width.toNat))
  rw [sampleHigh, sampleLow] at hwide
  rw [hwide, setWidth_setWidth_ushiftRight_two, sampleTop]

/-- Settles O44: both planes are the unpacked rows of the frame, and the rows are the same. -/
theorem planeDependsOnItsFrameOnly : Obligations.PlaneDependsOnItsFrameOnly := by
  refine ⟨fun s s' t t' h v fi hc hc' hl hbytes hexec herr hexec' herr' a ha => ?_,
    fun h fi fj hlt => frameEnd_le_frameStart hlt h⟩
  have hp := publishes_of_normal hc hl hexec herr
  have hp' := publishes_of_normal hc' hl hexec' herr'
  refine hp.plane.read_eq hp'.plane (fun r hr => ?_) ha
  have hend : (r + 1) * rowBytes h.width.toNat ≤ h.height.toNat * rowBytes h.width.toNat :=
    Nat.mul_le_mul_right _ hr
  rw [Nat.succ_mul] at hend
  exact packedRow_congr (length_packedRow hc hl hp.inSrc hr) (length_packedRow hc' hl hp'.inSrc hr)
    fun i hi => hbytes _ (by omega) (by omega)

/-- Settles O34: both checks raise before the row loop. -/
theorem decodeRefusals : Obligations.DecodeRefusals := by
  refine ⟨fun s v fi hp => ?_, fun s h v fi hp hf => ?_⟩
  · rw [exec_decodeInstr, decodePlane_of_unparsed hp]
    rfl
  · rw [exec_decodeInstr, decodePlane_of_outOfRange hp hf]
    rfl

end Sys2Proof.Proofs

/-! # Proofs: the completions of the commands (spec/60_exceptions.md)

First the rules: the two ways a decode can fail, and where an error leaves `CUR`, for each class of commands.
Then the theorems that settle the statements. -/

namespace Sys2Proof.Machine

/-- A decode that fails was refused by a check, and then it writes the completion registers only, or one of
its reads failed (R165, R166, R167). -/
theorem decodePlane_error_cases {v : Variant} {fi : Word32} {s t : State}
    (h : decodePlane v fi s = .next t) (herr : t.err ≠ 0) :
    (t.err = 3 ∨ t.err = 6 ∨ t.err = 7) ∧
        t = { s with err := t.err, eInfo0 := t.eInfo0, eInfo1 := t.eInfo1, eInfo2 := 0 } ∨
      (t.err = 4 ∨ t.err = 5) := by
  obtain ⟨-, -, -, -, -, -, hrefused | ⟨-, ⟨hok, -⟩ | ⟨hread, -⟩⟩⟩ := decodePlane_effects h
  · exact .inl hrefused
  · exact absurd hok herr
  · exact .inr hread

/-- Where an error of a command leaves the cursor (R186): behind the header after a format error, and as it was
after an error that no read precedes. After a failed read it is unspecified (R57). -/
structure PreciseCursor (s t : State) : Prop where
  format : t.err = 1 ∨ t.err = 2 → t.cur = 16
  unread : t.err = 3 ∨ t.err = 6 ∨ t.err = 7 → t.cur = s.cur

theorem PreciseCursor.of_readError {s t : State} (hcode : t.err = 4 ∨ t.err = 5) :
    PreciseCursor s t := by
  rcases hcode with hcode | hcode <;> constructor <;> simp [hcode]

/-- A state with an unmoved cursor is precise for every code but the format errors of `PARSE`. -/
theorem PreciseCursor.of_cur_eq {s t : State} (hcode : ¬ (t.err = 1 ∨ t.err = 2))
    (hcur : t.cur = s.cur) : PreciseCursor s t :=
  ⟨fun hformat => absurd hformat hcode, fun _ => hcur⟩

/-- `PARSE` reads the header before it finds a format error in it (R110). -/
theorem execParse_preciseCursor {s t : State} (h : execParse s = .next t) (herr : t.err ≠ 0) :
    PreciseCursor s t := by
  obtain ⟨-, -, -, -, -, -, -, -, -, hcase⟩ := execParse_effects h
  rcases hcase with ⟨hok, -⟩ | ⟨-, ⟨hcode, hcur⟩ | ⟨hcode, hcur⟩ | hread⟩
  · exact absurd hok herr
  · exact .of_cur_eq (by simp [hcode]) hcur
  · exact ⟨fun _ => hcur, by rcases hcode with hcode | hcode <;> simp [hcode]⟩
  · exact .of_readError hread

/-- A decode seeks after its checks (R163). -/
theorem decodePlane_preciseCursor {v : Variant} {fi : Word32} {s t : State}
    (h : decodePlane v fi s = .next t) (herr : t.err ≠ 0) : PreciseCursor s t := by
  rcases decodePlane_error_cases h herr with ⟨hcode, ht⟩ | hread
  · exact .of_cur_eq (by rcases hcode with hcode | hcode | hcode <;> simp [hcode]) (by rw [ht])
  · exact .of_readError hread

/-- A command for `RES` leaves the cursor alone (R28, R118). -/
theorem exec_result_preciseCursor {i : Instr} {s t : State} (hi : IsResultCommand i)
    (h : exec i s = .next t) : PreciseCursor s t := by
  obtain ⟨ht, hcode⟩ := exec_result_effects hi h
  refine .of_cur_eq ?_ (by rw [ht])
  rcases hcode with ⟨hcode, -⟩ | ⟨-, hcode | hcode | hcode | hcode⟩ <;> simp [hcode]

theorem exec_preciseCursor {i : Instr} {s t : State} (h : exec i s = .next t) (herr : t.err ≠ 0) :
    PreciseCursor s t := by
  rcases instr_cases i with rfl | ⟨v, fi, rfl⟩ | hi
  · exact execParse_preciseCursor h herr
  · rw [exec_decodeInstr] at h
    exact decodePlane_preciseCursor h herr
  · exact exec_result_preciseCursor hi h

end Sys2Proof.Machine

/-! ## The statements -/

namespace Sys2Proof.Proofs

open Sys2Proof.Machine

/-- Settles O58: by `writersOfEachRegister` an error leaves the registers beside `CUR` alone, and `DST` after
every command but a decode. -/
theorem errorsArePrecise : Obligations.ErrorsArePrecise := by
  intro i s t h herr
  obtain ⟨hlatch, -, hresult, hplane⟩ := writersOfEachRegister i s t h
  obtain ⟨hformat, hunread⟩ := exec_preciseCursor h herr
  have hres : t.res = s.res := not_not.1 fun hne => herr (hresult hne).1
  have hphase : t.phase = s.phase := not_not.1 fun hne => herr (hlatch (.inl hne)).2
  have hheader : t.header = s.header := not_not.1 fun hne => herr (hlatch (.inr hne)).2
  refine ⟨hres, hphase, hheader, ?_, hformat, hunread⟩
  by_cases hi : ∃ v fi, i = decodeInstr v fi
  · obtain ⟨v, fi, rfl⟩ := hi
    rw [exec_decodeInstr] at h
    rcases decodePlane_error_cases h herr with ⟨-, ht⟩ | hread
    · rw [ht]
      exact .inr ⟨rfl, rfl, fun _ => rfl⟩
    · exact .inl ⟨hread, v, fi, rfl⟩
  · have hkept := mt hplane hi
    push Not at hkept
    exact .inr hkept

/-- Settles O59, command by command. -/
theorem completionCodesPerCommand : Obligations.CompletionCodesPerCommand := by
  intro i s t h
  refine ⟨?parse, ?sniff, ?offset, ?decode, ?group⟩
  case parse =>
    rintro rfl
    obtain ⟨-, -, -, -, -, -, -, -, -, hcase⟩ := execParse_effects h
    rcases hcase with ⟨hcode, -⟩ | ⟨-, ⟨hcode, -⟩ | ⟨hcode | hcode, -⟩ | hcode | hcode⟩ <;> simp [hcode]
  case sniff =>
    rintro rfl
    obtain ⟨-, hcase⟩ := execSniff_effects h
    rcases hcase with ⟨hcode, -⟩ | ⟨-, hcode | hcode⟩ <;> simp [hcode]
  case offset =>
    rintro fi rfl
    obtain ⟨-, hcase⟩ := execOffset_effects h
    rcases hcase with ⟨hcode, -⟩ | ⟨-, hcode | hcode⟩ <;> simp [hcode]
  case decode =>
    rintro v fi rfl
    rw [exec_decodeInstr] at h
    by_cases hok : t.err = 0
    · simp [hok]
    · rcases decodePlane_error_cases h hok with ⟨hcode | hcode | hcode, -⟩ | hcode | hcode <;> simp [hcode]
  case group =>
    rintro b0 b1 b2 b3 b4 (rfl | rfl) <;> cases h <;> rfl

end Sys2Proof.Proofs

/-! # Proofs: reset, the bounds on work, and the end of every step (spec/70_reset_and_hazards.md)

First the rules: the reset event as a step, the end of the last frame, the answers a decode uses up, and that
each command completes. Then the theorems that settle the statements. -/

namespace Sys2Proof.Machine

/-! ## The reset event -/

/-- A step that presents a reset binds the stream, or refuses one that R9 excludes (R210, R211). -/
theorem step_of_reset {s : State} {src : List Byte} {rel : Bool} {rest : List HostEvent}
    (h : s.host = .reset src rel :: rest) :
    step s =
      if src.length < srcLimit then .next (resetBlock src rel (s.withHost rest))
      else .refused .streamTooLong := by
  rw [step, h]
  rfl

/-! ## The bounds of a decode -/

/-- The header registers of a state of the invariant are legal (R39). -/
theorem State.Inv.legal {s : State} {h : Header} (hs : s.Inv) (hp : s.HoldsHeader h) : h.Legal := by
  obtain ⟨hparsed, rfl⟩ := hp
  obtain ⟨hl, -, -⟩ := hs.header_of_src hparsed
  exact hl

/-- Every frame ends within the length that the header implies, which is where a frame behind the last one
would start (R62, R63). -/
theorem frameEnd_le_expectedLength {fi : Word32} {h : Header} (hf : fi < h.frameCount) :
    frameStart fi h + h.height.toNat * rowBytes h.width.toNat ≤ expectedLength h :=
  frameEnd_le_frameStart hf h

/-- A decode uses up at most one answer of the environment a row, and none where a check fails (R169). -/
theorem decodePlane_answers {v : Variant} {fi : Word32} {s t : State}
    (h : decodePlane v fi s = .next t) :
    ∃ k, k ≤ s.header.height.toNat ∧ t.ioAnswers = s.ioAnswers.drop k := by
  rcases decodePlane_cases h with ⟨e, rfl⟩ | ⟨-, -, -, rfl⟩
  · exact ⟨0, Nat.zero_le _, rfl⟩
  · exact runDecode_answers v fi s.header s

/-! ## Each command completes -/

/-- The read of `PARSE` raises, or the checks of the header decide (R110). -/
theorem execParse_completes (s : State) : Completes (execParse s) := by
  cases hp : s.phase with
  | parsed => exact ⟨_, execParse_of_parsed hp⟩
  | unparsed =>
    rw [execParse_of_unparsed hp]
    cases seekRead 0 headerLength s with
    | ok bytes t => exact ⟨_, rfl⟩
    | raised e t => exact ⟨_, rfl⟩

theorem execSniff_completes (s : State) : Completes (execSniff s) := by
  unfold execSniff
  cases srcRead 0 4 s with
  | ok bytes t => exact ⟨_, rfl⟩
  | raised e t => exact ⟨_, rfl⟩

theorem execOffset_completes (fi : Word32) (s : State) : Completes (execOffset fi s) := by
  cases hp : s.phase with
  | unparsed => exact ⟨_, execOffset_of_unparsed hp fi⟩
  | parsed =>
    by_cases hf : fi < s.header.frameCount
    · exact ⟨_, execOffset_of_inRange ⟨hp, rfl⟩ hf⟩
    · exact ⟨_, execOffset_of_outOfRange ⟨hp, rfl⟩ (BitVec.not_lt.1 hf)⟩

/-- A decode in a state of the invariant does not fault: a check raises, or the plane of the legal header fits
in `DST` (R58, R183). -/
theorem decodePlane_completes (v : Variant) (fi : Word32) {s : State} (hs : s.Inv) :
    Completes (decodePlane v fi s) := by
  cases hp : s.phase with
  | unparsed => exact ⟨_, decodePlane_of_unparsed hp v fi⟩
  | parsed =>
    have hheld : s.HoldsHeader s.header := ⟨hp, rfl⟩
    by_cases hf : fi < s.header.frameCount
    · by_cases hw : s.header.width.toNat % 4 = 0
      · exact ⟨_, decodePlane_of_checks ⟨hheld, hf, hw⟩ v (planeBytes_le_dstSize v (hs.legal hheld))⟩
      · exact ⟨_, decodePlane_of_oddWidth hheld hf hw v⟩
    · exact ⟨_, decodePlane_of_outOfRange hheld (BitVec.not_lt.1 hf) v⟩

/-- Every command completes (R185, R220); only the decodes need the invariant for it. -/
theorem exec_completes (i : Instr) {s : State} (hs : s.Inv) : Completes (exec i s) := by
  cases i with
  | parse => exact execParse_completes s
  | sniff => exact execSniff_completes s
  | offset fi => exact execOffset_completes fi s
  | decode8 fi => exact decodePlane_completes .variant8 fi hs
  | decode16 fi => exact decodePlane_completes .variant16 fi hs
  | unpk8 b0 b1 b2 b3 b4 => exact ⟨_, rfl⟩
  | unpk16 b0 b1 b2 b3 b4 => exact ⟨_, rfl⟩

end Sys2Proof.Machine

/-! ## The statements -/

namespace Sys2Proof.Proofs

open Sys2Proof.Machine

/-- Settles O45: a frame in range lies within the implied length, so `decodePublishesPlane` applies. -/
theorem wholeFileDecodes : Obligations.WholeFileDecodes := by
  intro s h v fi hs hc hrel hlen
  have ⟨hheld, hf, _⟩ := hc
  have hin : FrameInSrc fi h s := .inr ((frameEnd_le_expectedLength hf).trans hlen)
  obtain ⟨m, hexec, -⟩ := decodePublishesPlane s h v fi hc (hs.legal hheld) hrel hin
  exact ⟨_, hexec, rfl, rfl, rfl⟩

/-- Settles O46, from `decodePlane_answers`. -/
theorem decodeMakesAtMostHeightReads : Obligations.DecodeMakesAtMostHeightReads := by
  rintro s t h v fi ⟨-, rfl⟩ hexec
  rw [exec_decodeInstr] at hexec
  exact decodePlane_answers hexec

/-- Settles O53, for each action of the host: a word that decodes is a command, and a step refuses nothing but
an over-long stream. -/
theorem everyStepCompletes : Obligations.EveryStepCompletes := by
  intro s hs
  match hhost : s.host with
  | [] => exact .inl ⟨s, idleStepChangesNothing s hhost⟩
  | .command cw :: rest =>
    left
    by_cases hlegal : ∃ i, decode cw = .ok i
    · obtain ⟨i, hi⟩ := hlegal
      rw [stepRunsDecodedCommand s cw rest i hhost hi]
      exact exec_completes i (hs.withHost rest)
    · exact ⟨_, step_of_decode_ne_ok hhost (not_exists.1 hlegal)⟩
  | .reset src rel :: rest =>
    rw [step_of_reset hhost]
    split
    · exact .inl ⟨_, rfl⟩
    · next hlong => exact .inr ⟨rfl, src, rel, rest, rfl, Nat.not_lt.1 hlong⟩
  | .writeDst addr b :: rest => exact .inl ⟨_, step_of_writeDst hhost⟩

/-- Settles O2: `resetBlock` keeps of the state before what goes on, and the host's further actions are those
behind the reset. -/
theorem resetEventRestoresReset : Obligations.ResetEventRestoresReset := by
  intro s src rel rest hhost hlen
  exact (step_of_reset hhost).trans (if_pos hlen)

end Sys2Proof.Proofs
